-- ==== Sys2Proof/Word.lean ====
section
/-! DEFINITION. The widths of the unit: bytes (field elements, R8), 16-bit words (control registers and BUF
addresses, R17, R22) and 32-bit command words (R60). -/

namespace Sys2Proof

/-- A field element, a BUF byte or an F register's content: 8 bits (R8, R15, R22). -/
abbrev Byte := BitVec 8

/-- A control register's content or a BUF address as a command carries it: 16 bits (R17, R63). -/
abbrev Word := BitVec 16

/-- A command word as the host presents it: 32 bits, bit 0 the least significant (R8, R60). -/
abbrev Command := BitVec 32

/-- The number of an F register, 0..15 (R15, R63). -/
abbrev FReg := Fin 16

end Sys2Proof
end

