-- ==== Sys2Proof/Syntax.lean ====
section
/-! DEFINITION. The commands of the unit as syntax: one constructor of `Instr` for each row of
spec/opcode_table.json (R64), and the names of the control registers (R17). -/

namespace Sys2Proof

/-- The 16 control registers by name, in the order of their numbers 0..15 (R17). -/
inductive CReg where
  | status | errcmdl | errcmdh | cap
  | secbase | seclen | parts | thresh
  | shrbase | descbase | nshares | polybase
  | polylen | xsbase | ysbase | nsamp
  deriving DecidableEq, Repr

/-- The 13 commands (R64, R69). A register operand is a number 0..15, a control register a name, an immediate the
bits the word carries: every operand value an encoding can hold is a term and no other is (R63). -/
inductive Instr where
  /-- `tbuild`: rebuild EXP and LOG (R81). -/
  | tbuild
  /-- `gfadd fd, fa, fb`: F[fd] is F[fa] XOR F[fb] (R94). -/
  | gfadd (fd fa fb : FReg)
  /-- `gfmul fd, fa, fb`: the field product (R95). -/
  | gfmul (fd fa fb : FReg)
  /-- `gfdiv fd, fa, fb`: F[fa] divided by F[fb] (R96). -/
  | gfdiv (fd fa fb : FReg)
  /-- `ldi fd, imm8` (R150). -/
  | ldi (fd : FReg) (imm8 : Byte)
  /-- `ldb fd, addr` (R151). -/
  | ldb (fd : FReg) (addr : Word)
  /-- `stb fs, addr` (R152). -/
  | stb (fs : FReg) (addr : Word)
  /-- `crw NAME, imm16` (R153). -/
  | crw (cr : CReg) (imm16 : Word)
  /-- `mkpoly fa, degree` (R112). -/
  | mkpoly (fa : FReg) (degree : Byte)
  /-- `eval fd, fa` (R113). -/
  | eval (fd fa : FReg)
  /-- `interp fd, fa` (R122). -/
  | interp (fd fa : FReg)
  /-- `split` (R131). -/
  | split
  /-- `combine` (R141). -/
  | combine
  deriving DecidableEq, Repr

end Sys2Proof
end

