-- ==== Sys2Proof/WellFormed.lean ====
section
/-! DEFINITION. Well-formedness: of a command word (a listed opcode, R66, and zero must-be-zero bits, R68) and of
an instruction term (every term is one, R63). -/

namespace Sys2Proof

/-- The seven formats of rule R62. -/
inductive Format where
  | z | r3 | r2 | ri | pi | m | c
  deriving DecidableEq, Repr

/-- The format of each listed opcode (R62, R64); `none` for the 243 reserved opcodes of rule R66. -/
def formatOf (opcode : Byte) : Option Format :=
  match opcode.toNat with
  | 0x01 => some .z
  | 0x10 => some .r3
  | 0x11 => some .r3
  | 0x12 => some .r3
  | 0x20 => some .ri
  | 0x21 => some .m
  | 0x22 => some .m
  | 0x23 => some .c
  | 0x30 => some .pi
  | 0x31 => some .r2
  | 0x40 => some .r2
  | 0x50 => some .z
  | 0x51 => some .z
  | _ => none

/-- The must-be-zero bits of each format are zero, from the list of rule R68:
Z [23:0]; R3 [11:0]; R2 [15:0]; RI [19:8]; PI [23:20] and [15:8]; M [19:16]; C [19:16]. -/
def reservedBitsZero (fmt : Format) (w : Command) : Bool :=
  match fmt with
  | .z => w.extractLsb' 0 24 == 0
  | .r3 => w.extractLsb' 0 12 == 0
  | .r2 => w.extractLsb' 0 16 == 0
  | .ri => w.extractLsb' 8 12 == 0
  | .pi => w.extractLsb' 20 4 == 0 && w.extractLsb' 8 8 == 0
  | .m => w.extractLsb' 16 4 == 0
  | .c => w.extractLsb' 16 4 == 0

/-- A command word that stands for a command: its opcode is listed (R66) and the must-be-zero bits of its format
are zero (R68). -/
def wordWellFormed (w : Command) : Bool :=
  match formatOf (w.extractLsb' 24 8) with
  | some fmt => reservedBitsZero fmt w
  | none => false

/-- Every instruction term is well formed: "every value names an existing register, so no register number is
illegal", and an immediate is any value of its width (R63). The types of `Instr` hold the widths, so no check is left
to make on a term; the checks on a word are `wordWellFormed`. -/
def Instr.wellFormed : Instr → Bool
  | .tbuild => true
  | .gfadd _ _ _ => true
  | .gfmul _ _ _ => true
  | .gfdiv _ _ _ => true
  | .ldi _ _ => true
  | .ldb _ _ => true
  | .stb _ _ => true
  | .crw _ _ => true
  | .mkpoly _ _ => true
  | .eval _ _ => true
  | .interp _ _ => true
  | .split => true
  | .combine => true

end Sys2Proof
end

