-- ==== Sys2Proof/Decode.lean ====
section
/-! DEFINITION. The decoder (R61 to R65), total on every 32-bit word and rejecting by name (R66, R68), and after it
the encoder, written from the same formats (R62). -/

namespace Sys2Proof

/-- Why a word is no command (R65). -/
inductive DecodeError where
  /-- The opcode is not listed (R66). -/
  | reservedOpcode
  /-- A must-be-zero bit of the format is 1 (R68). -/
  | reservedBits
  deriving DecidableEq, Repr

/-! ### The fields of a word (R61, R63) -/

/-- Bits [31:24]. -/
def opcodeField (w : Command) : Byte := w.extractLsb' 24 8

/-- Bits [23:20] as a register number (`rd`, and `cr` of CRW). -/
def rdField (w : Command) : FReg := (w.extractLsb' 20 4).toFin

/-- Bits [19:16] as a register number. -/
def raField (w : Command) : FReg := (w.extractLsb' 16 4).toFin

/-- Bits [15:12] as a register number. -/
def rbField (w : Command) : FReg := (w.extractLsb' 12 4).toFin

/-- Bits [7:0]. -/
def imm8Field (w : Command) : Byte := w.extractLsb' 0 8

/-- Bits [15:0]. -/
def imm16Field (w : Command) : Word := w.extractLsb' 0 16

/-- The number of a control register (R17). -/
def CReg.num : CReg → Fin 16
  | .status => 0
  | .errcmdl => 1
  | .errcmdh => 2
  | .cap => 3
  | .secbase => 4
  | .seclen => 5
  | .parts => 6
  | .thresh => 7
  | .shrbase => 8
  | .descbase => 9
  | .nshares => 10
  | .polybase => 11
  | .polylen => 12
  | .xsbase => 13
  | .ysbase => 14
  | .nsamp => 15

/-- The control register of a number (R17). -/
def CReg.ofNum (n : Fin 16) : CReg :=
  match n.val with
  | 0 => .status
  | 1 => .errcmdl
  | 2 => .errcmdh
  | 3 => .cap
  | 4 => .secbase
  | 5 => .seclen
  | 6 => .parts
  | 7 => .thresh
  | 8 => .shrbase
  | 9 => .descbase
  | 10 => .nshares
  | 11 => .polybase
  | 12 => .polylen
  | 13 => .xsbase
  | 14 => .ysbase
  | _ => .nsamp

/-- A register commands may write: CR[4] to CR[15]; CR[0] to CR[3] are read-only (R17). -/
def CReg.writable (n : CReg) : Bool := decide (4 ≤ n.num.val)

/-! ### The opcode map (R64) -/

/-- The mnemonics of the opcode map. -/
inductive Mnemonic where
  | tbuild | gfadd | gfmul | gfdiv | ldi | ldb | stb | crw | mkpoly | eval | interp | split | combine
  deriving DecidableEq, Repr

/-- One row of the opcode map: "a word `w` is the command exactly when `w AND mask = match`" (R64). -/
structure OpcodeRow where
  mnemonic : Mnemonic
  opcode : Byte
  pattern : Command
  mask : Command
  deriving DecidableEq, Repr

/-- The opcode map, row by row (R64). -/
def opcodeMap : List OpcodeRow := [
  ⟨.tbuild, 0x01, 0x01000000, 0xFFFFFFFF⟩,
  ⟨.gfadd, 0x10, 0x10000000, 0xFF000FFF⟩,
  ⟨.gfmul, 0x11, 0x11000000, 0xFF000FFF⟩,
  ⟨.gfdiv, 0x12, 0x12000000, 0xFF000FFF⟩,
  ⟨.ldi, 0x20, 0x20000000, 0xFF0FFF00⟩,
  ⟨.ldb, 0x21, 0x21000000, 0xFF0F0000⟩,
  ⟨.stb, 0x22, 0x22000000, 0xFF0F0000⟩,
  ⟨.crw, 0x23, 0x23000000, 0xFF0F0000⟩,
  ⟨.mkpoly, 0x30, 0x30000000, 0xFFF0FF00⟩,
  ⟨.eval, 0x31, 0x31000000, 0xFF00FFFF⟩,
  ⟨.interp, 0x40, 0x40000000, 0xFF00FFFF⟩,
  ⟨.split, 0x50, 0x50000000, 0xFFFFFFFF⟩,
  ⟨.combine, 0x51, 0x51000000, 0xFFFFFFFF⟩]

/-- The operands of a command, taken from the fields of its format (R62). -/
def operandsOf (m : Mnemonic) (w : Command) : Instr :=
  match m with
  | .tbuild => .tbuild
  | .gfadd => .gfadd (rdField w) (raField w) (rbField w)
  | .gfmul => .gfmul (rdField w) (raField w) (rbField w)
  | .gfdiv => .gfdiv (rdField w) (raField w) (rbField w)
  | .ldi => .ldi (rdField w) (imm8Field w)
  | .ldb => .ldb (rdField w) (imm16Field w)
  | .stb => .stb (rdField w) (imm16Field w)
  | .crw => .crw (CReg.ofNum (rdField w)) (imm16Field w)
  | .mkpoly => .mkpoly (raField w) (imm8Field w)
  | .eval => .eval (rdField w) (raField w)
  | .interp => .interp (rdField w) (raField w)
  | .split => .split
  | .combine => .combine

/-- The decoding algorithm of rule R65: find the opcode's row, check the mask, extract the fields. -/
def decode (w : Command) : Except DecodeError Instr :=
  match opcodeMap.find? (fun row => row.opcode == opcodeField w) with
  | none => .error .reservedOpcode
  | some row =>
    if w &&& row.mask = row.pattern then .ok (operandsOf row.mnemonic w) else .error .reservedBits

/-! ### The encoder (R62): each format's columns, left to right -/

/-- A register number as the four bits of a field. -/
def regBits (r : Fin 16) : BitVec 4 := BitVec.ofFin r

/-- Format Z: the opcode, then zeros. -/
def packZ (opcode : Byte) : Command := opcode ++ (0 : BitVec 24)

/-- Format R3: opcode, rd, ra, rb, zeros. -/
def packR3 (opcode : Byte) (rd ra rb : Fin 16) : Command :=
  opcode ++ regBits rd ++ regBits ra ++ regBits rb ++ (0 : BitVec 12)

/-- Format R2: opcode, rd, ra, zeros. -/
def packR2 (opcode : Byte) (rd ra : Fin 16) : Command :=
  opcode ++ regBits rd ++ regBits ra ++ (0 : BitVec 16)

/-- Format RI: opcode, rd, zeros, imm8. -/
def packRI (opcode : Byte) (rd : Fin 16) (imm8 : Byte) : Command :=
  opcode ++ regBits rd ++ (0 : BitVec 12) ++ imm8

/-- Format PI: opcode, zeros, ra, zeros, imm8. -/
def packPI (opcode : Byte) (ra : Fin 16) (imm8 : Byte) : Command :=
  opcode ++ (0 : BitVec 4) ++ regBits ra ++ (0 : BitVec 8) ++ imm8

/-- Formats M and C: opcode, rd or cr, zeros, imm16. -/
def packM (opcode : Byte) (rd : Fin 16) (imm16 : Word) : Command :=
  opcode ++ regBits rd ++ (0 : BitVec 4) ++ imm16

/-- The word of an instruction (R62, R64). Every instruction is well formed (R63). -/
def encode : Instr → Command
  | .tbuild => packZ 0x01
  | .gfadd fd fa fb => packR3 0x10 fd fa fb
  | .gfmul fd fa fb => packR3 0x11 fd fa fb
  | .gfdiv fd fa fb => packR3 0x12 fd fa fb
  | .ldi fd imm8 => packRI 0x20 fd imm8
  | .ldb fd addr => packM 0x21 fd addr
  | .stb fs addr => packM 0x22 fs addr
  | .crw cr imm16 => packM 0x23 cr.num imm16
  | .mkpoly fa degree => packPI 0x30 fa degree
  | .eval fd fa => packR2 0x31 fd fa
  | .interp fd fa => packR2 0x40 fd fa
  | .split => packZ 0x50
  | .combine => packZ 0x51

/-! ### The opcode table's words -/

/-- The instruction the decoder reads from a word whose bits are numbered as spec/opcode_table.json numbers them
(`none` where it refuses). A command is one 32-bit value and not stored in bytes (R43, R60), so the word is given to
the decoder as it is. -/
def decodeTableWord (nbits w : Nat) : Option Instr :=
  let v := w % 2 ^ nbits
  if v < 2 ^ 32 then (decode (BitVec.ofNat 32 v)).toOption else none

end Sys2Proof
end

