-- ==== Sys2Proof/Config.lean ====
section
/-! DEFINITION. What the spec fixes for the unit as parameters (R6, R7) and the free values it leaves open:
the bytes of BUF after a reset (U3) and the draws of the random source (R176, U4, U5). -/

namespace Sys2Proof

/-- BUF holds 65536 bytes, addresses 0x0000..0xFFFF (R7, R22). -/
def Config.bufSize : Nat := 65536

/-- `ShareOverhead`: the one extra byte of every share (R6, R20). -/
def Config.shareOverhead : Nat := 1

/-- FREE VALUE (log 3). What the BUF byte at an address holds after the `n`-th reset while neither a command nor
the host has written it since: "every byte becomes unspecified" (R190, U3). No body: nothing fixes a value. -/
opaque Config.bufAfterReset : (resets : Nat) → (addr : Nat) → Byte

/-- FREE VALUE (log 4). The `n`-th draw RandCoeff that the state does not supply itself: the number `v` stands for
the byte `v + 1`, so that every draw is in 1..255 (R176). No body: nothing else is known of it. -/
opaque Config.randCoeff : (n : Nat) → Fin 255

/-- FREE VALUE (log 4). The `n`-th draw RandPerm that the state does not supply itself: some permutation of
0..254 (R176). No body: nothing else is known of it. -/
opaque Config.randPerm : (n : Nat) → Equiv.Perm (Fin 255)

end Sys2Proof
end

