-- ==== Sys2Proof/Machine/State.lean ====
section
/-! DEFINITION. The state of the unit (10_state.md), the host actions and random draws that are its inputs, the
reasons a step can stop, and the state after reset (R190, R191). -/

namespace Sys2Proof.Machine

/-- A memory: the bytes written since the last reset, by address. An address that is not listed holds no known byte
(R22, U3); the canonical form is `Memory.wf`. -/
abbrev Memory := List Host.Cell

/-- A draw of the random source RandPerm: every value 0..254 exactly once, in some order (R134, R176). -/
structure PermDraw where
  entries : List (Fin 255)
  length_eq : entries.length = 255
  nodup : entries.Nodup
  deriving DecidableEq, Repr

/-- The random source as the unit sees it (R23, R176, log 4). `coeffs` and `perms` are draws it has been given to
return, oldest first (the number `v` in `coeffs` stands for the byte `v + 1`, so every draw is in 1..255); with
none given a draw is a free value of Config, and `coeffCount` and `permCount` say how many of those were taken. -/
structure RandomSource where
  coeffs : List (Fin 255)
  perms : List PermDraw
  coeffCount : Nat
  permCount : Nat
  deriving DecidableEq, Repr

/-- What the host can do at a command boundary (R182). -/
inductive HostAction where
  /-- Reset the unit (R190). -/
  | reset
  /-- Present a command word (R60, R172). -/
  | issue (w : Command)
  /-- Acknowledge an error (R171). -/
  | ack
  /-- Read an F register. -/
  | readF (i : FReg)
  /-- Read a control register. -/
  | readCR (n : CReg)
  /-- Read a BUF byte. -/
  | readBuf (a : Word)
  /-- Write a BUF byte. -/
  | writeBuf (a : Word) (v : Byte)
  deriving DecidableEq, Repr

/-- The value a read returns to the host (R182). -/
inductive Reply where
  | byte (v : Byte)
  | word (v : Word)
  deriving DecidableEq, Repr

/-- The state: first what the spec gives the unit, then what the model holds of the host and the random source. -/
structure State where
  /-- EXP and LOG (R10). -/
  tables : Tables
  /-- F[0..15] (R15). -/
  f : Vector Byte 16
  /-- CR[0]: ERR [3:0], SUB [7:4], RUN [9:8] (R18, log 12). -/
  status : Word
  /-- CR[1]: bits [15:0] of the command word that raised the pending error (R19). -/
  errcmdl : Word
  /-- CR[2]: bits [31:16] of that word (R19). -/
  errcmdh : Word
  /-- CR[4] (R17); CR[3], CAP, is a constant: `State.readCR` (R20, log 7). -/
  secbase : Word
  /-- CR[5]. -/
  seclen : Word
  /-- CR[6]. -/
  parts : Word
  /-- CR[7]. -/
  thresh : Word
  /-- CR[8]. -/
  shrbase : Word
  /-- CR[9]. -/
  descbase : Word
  /-- CR[10]. -/
  nshares : Word
  /-- CR[11]. -/
  polybase : Word
  /-- CR[12]. -/
  polylen : Word
  /-- CR[13]. -/
  xsbase : Word
  /-- CR[14]. -/
  ysbase : Word
  /-- CR[15]. -/
  nsamp : Word
  /-- BUF (R22). -/
  buf : Memory
  /-- The host actions still to come, oldest first (R24, R182, log 1). -/
  host : List HostAction
  /-- The value the host's latest read returned (R182, log 5). -/
  reply : Option Reply
  /-- How many resets the host has made: the argument of the free BUF contents (U3, log 3). -/
  resets : Nat
  /-- The random source (R176, log 4). -/
  rng : RandomSource
  deriving DecidableEq, Repr

/-- A step never ends in a fault: "every command word in every reachable state has a defined outcome under the
rules" (93_implementation_defined.md). An error of the spec is a next state (R168). The type has no constructor,
which is safe: it allows no stop that the spec does not have. -/
inductive Fault where
  deriving DecidableEq, Repr

/-- Why a command has no meaning. -/
inductive Refusal where
  /-- Raised by an arm of `exec` that has no meaning yet (safe: nothing can be proved of such a step). No arm of
  this model raises it. -/
  | notModelled (mnemonic : String)
  deriving DecidableEq, Repr

/-- The random source with no draw supplied (log 4). -/
def RandomSource.initial : RandomSource := ⟨[], [], 0, 0⟩

/-- The machine right after reset (R190, R191): the tables built, F and the control registers zero, READY, every
BUF byte unspecified (none listed, U3). The host has no action to come and has read nothing (log 1, log 5). -/
def State.reset : State where
  tables := standardTables
  f := Vector.replicate 16 0x00
  status := 0x0000
  errcmdl := 0x0000
  errcmdh := 0x0000
  secbase := 0x0000
  seclen := 0x0000
  parts := 0x0000
  thresh := 0x0000
  shrbase := 0x0000
  descbase := 0x0000
  nshares := 0x0000
  polybase := 0x0000
  polylen := 0x0000
  xsbase := 0x0000
  ysbase := 0x0000
  nsamp := 0x0000
  buf := []
  host := []
  reply := none
  resets := 0
  rng := RandomSource.initial

end Sys2Proof.Machine
end

