-- ==== Sys2Proof/Machine/Flags.lean ====
section
/-! DEFINITION. STATUS, the unit's only flags (R18): its fields, the error classes and sub-causes and their codes
(R160 to R164), and the word that error entry writes (R168). -/

namespace Sys2Proof.Machine

/-- The sub-causes of ValidationError (R161). -/
inductive ValidationCause where
  | threshLow | threshHigh | partsLtThresh | partsHigh | emptySecret | fewShares | shortShare | lenMismatch
  deriving DecidableEq, Repr

/-- The sub-causes of IllegalCommand (R164). -/
inductive IllegalCause where
  | reservedOpcode | reservedBits | crReadonly | badAddress | badLength | badDegree | overlap
  deriving DecidableEq, Repr

/-- An error a command raises: one of the four classes with its sub-cause (R160). -/
inductive Cause where
  | validation (sub : ValidationCause)
  | duplicateShare
  | divisionByZero
  | illegal (sub : IllegalCause)
  deriving DecidableEq, Repr

/-- The codes of rule R161. -/
def ValidationCause.code : ValidationCause → BitVec 4
  | .threshLow => 1
  | .threshHigh => 2
  | .partsLtThresh => 3
  | .partsHigh => 4
  | .emptySecret => 5
  | .fewShares => 6
  | .shortShare => 7
  | .lenMismatch => 8

/-- The codes of rule R164. -/
def IllegalCause.code : IllegalCause → BitVec 4
  | .reservedOpcode => 1
  | .reservedBits => 2
  | .crReadonly => 3
  | .badAddress => 4
  | .badLength => 5
  | .badDegree => 6
  | .overlap => 7

/-- The class code that STATUS.ERR holds (R160). -/
def Cause.err : Cause → BitVec 4
  | .validation _ => 1
  | .duplicateShare => 2
  | .divisionByZero => 3
  | .illegal _ => 4

/-- The sub-cause code that STATUS.SUB holds (R161 to R164). -/
def Cause.sub : Cause → BitVec 4
  | .validation c => c.code
  | .duplicateShare => 0
  | .divisionByZero => 0
  | .illegal c => c.code

/-- RUN = READY (R18, R166). -/
def runReady : BitVec 2 := 0

/-- RUN = HELD (R18, R166). -/
def runHeld : BitVec 2 := 1

/-- RUN = FATAL (R18, R166). -/
def runFatal : BitVec 2 := 2

/-- The run state a class leads to: FATAL for DivisionByZeroError, HELD for the others (R160, R168). -/
def Cause.run : Cause → BitVec 2
  | .validation _ => runHeld
  | .duplicateShare => runHeld
  | .divisionByZero => runFatal
  | .illegal _ => runHeld

/-- A STATUS word from its fields: bits [15:10] zero, RUN [9:8], SUB [7:4], ERR [3:0] (R18). -/
def statusWord (run : BitVec 2) (sub err : BitVec 4) : Word := (0 : BitVec 6) ++ run ++ sub ++ err

/-- The STATUS word of a pending error (R168). -/
def Cause.status (c : Cause) : Word := statusWord c.run c.sub c.err

/-- STATUS.ERR. -/
def statusErr (w : Word) : BitVec 4 := w.extractLsb' 0 4

/-- STATUS.SUB. -/
def statusSub (w : Word) : BitVec 4 := w.extractLsb' 4 4

/-- STATUS.RUN. -/
def statusRun (w : Word) : BitVec 2 := w.extractLsb' 8 2

/-- STATUS bits [15:10], which read as 0. -/
def statusZero (w : Word) : BitVec 6 := w.extractLsb' 10 6

end Sys2Proof.Machine
end

