-- ==== Sys2Proof/Machine/Ops.lean ====
section
/-! DEFINITION. The operations every command is built from: BUF (R42, R46), F and the control registers (R15, R17),
regions (R49), the draws (R176), taking an error (R168), the return from it (R171), reset (R190), and the frame of a
command: all its effect or one error (R167). -/

namespace Sys2Proof.Machine

/-! ### Memory in canonical form -/

/-- The canonical form: addresses strictly rising, each inside BUF (R22). An address that is not listed holds no
known byte, so no entry can equal what it reads as (log 3). -/
abbrev Memory.wf (m : Memory) : Prop :=
  m.Pairwise (fun x y => x.1 < y.1) ∧ ∀ c ∈ m, c.1 < Config.bufSize

/-- The byte stored at an address, if one was written since the last reset. -/
def Memory.find : Memory → Nat → Option Byte
  | [], _ => none
  | (b, w) :: m, a => if a = b then some w else Memory.find m a

/-- Store a byte, keeping the addresses rising. -/
def Memory.insert : Memory → Nat → Byte → Memory
  | [], a, v => [(a, v)]
  | (b, w) :: m, a, v =>
    if a < b then (a, v) :: (b, w) :: m
    else if a = b then (a, v) :: m
    else (b, w) :: Memory.insert m a v

/-- `MemRead(addr, 1)`: the byte most recently written, by a command or the host (R42, R46). A byte that neither has
written since reset is a free value, the same at every read until the next reset (R22, U3, log 3). -/
def State.bufByte (s : State) (a : Nat) : Byte :=
  (Memory.find s.buf a).getD (Config.bufAfterReset s.resets a)

/-- `MemWrite(addr, 1, v)` (R42). Every rule that writes has checked its region, so the address is below 65536; the
guard only keeps the canonical form without that premise (log 8). -/
def State.writeByte (s : State) (a : Nat) (v : Byte) : State :=
  if a < Config.bufSize then { s with buf := Memory.insert s.buf a v } else s

/-- Single-byte writes at ascending addresses (R40). -/
def State.writeBytes (s : State) (a : Nat) : List Byte → State
  | [] => s
  | v :: vs => State.writeBytes (s.writeByte a v) (a + 1) vs

/-- `MemRead(addr, 2)`: the byte at `addr` is the low one (R42). -/
def State.memRead2 (s : State) (a : Nat) : Nat := (s.bufByte a).toNat + 256 * (s.bufByte (a + 1)).toNat

/-- `MemWrite(addr, 2, v)`: "stores v[7:0] at addr and v[15:8] at addr+1; no rule of this spec uses the 2-byte
write" (R42). -/
def State.memWrite2 (s : State) (a : Nat) (v : Word) : State :=
  (s.writeByte a (v.extractLsb' 0 8)).writeByte (a + 1) (v.extractLsb' 8 8)

/-! ### Registers and tables -/

/-- Read an F register; none is hard-wired (R15). -/
def State.getF (s : State) (i : FReg) : Byte := s.f[i.val]

/-- Write an F register (R15). -/
def State.setF (s : State) (i : FReg) (v : Byte) : State := { s with f := s.f.set i.val v }

/-- Read a control register (R17). CAP reads 0x0001 always (R20, log 7). -/
def State.readCR (s : State) : CReg → Word
  | .status => s.status
  | .errcmdl => s.errcmdl
  | .errcmdh => s.errcmdh
  | .cap => BitVec.ofNat 16 Config.shareOverhead
  | .secbase => s.secbase
  | .seclen => s.seclen
  | .parts => s.parts
  | .thresh => s.thresh
  | .shrbase => s.shrbase
  | .descbase => s.descbase
  | .nshares => s.nshares
  | .polybase => s.polybase
  | .polylen => s.polylen
  | .xsbase => s.xsbase
  | .ysbase => s.ysbase
  | .nsamp => s.nsamp

/-- Write a control register. Only CR[4] to CR[15] can be written (R17): the other four keep their value, and CRW
refuses them before it comes to a write (R153). -/
def State.writeCR (s : State) (n : CReg) (v : Word) : State :=
  match n with
  | .status => s
  | .errcmdl => s
  | .errcmdh => s
  | .cap => s
  | .secbase => { s with secbase := v }
  | .seclen => { s with seclen := v }
  | .parts => { s with parts := v }
  | .thresh => { s with thresh := v }
  | .shrbase => { s with shrbase := v }
  | .descbase => { s with descbase := v }
  | .nshares => { s with nshares := v }
  | .polybase => { s with polybase := v }
  | .polylen => { s with polylen := v }
  | .xsbase => { s with xsbase := v }
  | .ysbase => { s with ysbase := v }
  | .nsamp => { s with nsamp := v }

/-- Write both field tables (R81). -/
def State.setTables (s : State) (T : Tables) : State := { s with tables := T }

/-! ### Regions -/

/-- "A region is in range when base + length ≤ 65536, computed in exact integers" (R49). -/
def regionInRange (base length : Nat) : Bool := decide (base + length ≤ Config.bufSize)

/-- Two regions overlap "when both lengths are nonzero and b1 < b2 + n2 and b2 < b1 + n1" (R49). -/
def regionsOverlap (b1 n1 b2 n2 : Nat) : Bool :=
  decide (n1 ≠ 0 ∧ n2 ≠ 0 ∧ b1 < b2 + n2 ∧ b2 < b1 + n1)

/-! ### Draws -/

/-- The byte 1..255 that a number 0..254 stands for: a coefficient draw (R176) and a coordinate `perm[k] + 1`
(R134). -/
def nonzeroByte (v : Fin 255) : Byte := BitVec.ofNat 8 (v.val + 1)

/-- A permutation of 0..254 as a draw. -/
def PermDraw.ofPerm (σ : Equiv.Perm (Fin 255)) : PermDraw where
  entries := List.ofFn σ
  length_eq := List.length_ofFn
  nodup := List.nodup_ofFn.mpr σ.injective

/-- `RandCoeff()`: one byte in 1..255 (R176, log 4). -/
def RandomSource.randCoeff (r : RandomSource) : Byte × RandomSource :=
  match r.coeffs with
  | v :: vs => (nonzeroByte v, { r with coeffs := vs })
  | [] => (nonzeroByte (Config.randCoeff r.coeffCount), { r with coeffCount := r.coeffCount + 1 })

/-- `RandPerm()`: a permutation of 0..254 (R176, log 4). -/
def RandomSource.randPerm (r : RandomSource) : PermDraw × RandomSource :=
  match r.perms with
  | p :: ps => (p, { r with perms := ps })
  | [] => (PermDraw.ofPerm (Config.randPerm r.permCount), { r with permCount := r.permCount + 1 })

/-- `n` draws RandCoeff, in order (R110). -/
def RandomSource.randCoeffs (r : RandomSource) : Nat → List Byte × RandomSource
  | 0 => ([], r)
  | n + 1 =>
    let first := r.randCoeff
    let others := RandomSource.randCoeffs first.2 n
    (first.1 :: others.1, others.2)

/-- The random source after the draws a command took. -/
def State.setRng (s : State) (r : RandomSource) : State := { s with rng := r }

/-! ### Taking an error, returning from it, reset -/

/-- Error entry: STATUS and the command word in ERRCMDH:ERRCMDL; "Nothing else changes" (R168). The unit has no
program counter, no saved registers and no handler (R170). -/
def State.raise (s : State) (w : Command) (c : Cause) : State :=
  { s with status := c.status, errcmdl := w.extractLsb' 0 16, errcmdh := w.extractLsb' 16 16 }

/-- ACK, the return from an error: in HELD it clears STATUS and ERRCMD; in READY and in FATAL it does nothing
(R171). -/
def State.acknowledge (s : State) : State :=
  if statusRun s.status = runHeld then { s with status := 0, errcmdl := 0, errcmdh := 0 } else s

/-- The unit accepts a command word only in run state READY (R172). -/
def State.ready (s : State) : Bool := statusRun s.status == runReady

/-- Reset (R190): every piece of the unit's state at its reset value, every BUF byte unspecified anew (U3). The host's
actions to come, what it has read, and the random source are no state of the unit and stay (R24, R191). -/
def State.resetUnit (s : State) : State :=
  { State.reset with host := s.host, reply := s.reply, resets := s.resets + 1, rng := s.rng }

/-- The frame of a command: all of its effect, or one error and nothing else of it (R165, R167). The word error entry
records is the command's own (log 9). -/
def runCommand (i : Instr) (s : State) (effect : Except Cause State) : Host.Outcome State Fault Refusal :=
  match effect with
  | .ok t => .next t
  | .error c => .next (s.raise (encode i) c)

end Sys2Proof.Machine
end

