-- ==== Sys2Proof/Machine/DataSystem.lean ====
section
/-! DEFINITION. Data movement and system commands: LDI, LDB, STB, CRW (R150 to R153). -/

namespace Sys2Proof.Machine

/-- LDI fd, imm8: `F[rd] <- imm8` (R150). -/
def execLdi (fd : FReg) (imm8 : Byte) (s : State) : Host.Outcome State Fault Refusal :=
  runCommand (.ldi fd imm8) s (.ok (s.setF fd imm8))

/-- LDB fd, addr: `F[rd] <- MemRead(imm16, 1)`; every 16-bit address is inside BUF (R151). -/
def execLdb (fd : FReg) (addr : Word) (s : State) : Host.Outcome State Fault Refusal :=
  runCommand (.ldb fd addr) s (.ok (s.setF fd (s.bufByte addr.toNat)))

/-- STB fs, addr: `MemWrite(imm16, 1, F[rd])` (R152). -/
def execStb (fs : FReg) (addr : Word) (s : State) : Host.Outcome State Fault Refusal :=
  runCommand (.stb fs addr) s (.ok (s.writeByte addr.toNat (s.getF fs)))

/-- CRW NAME, imm16: CR_READONLY for CR[0] to CR[3], else `CR[cr] <- imm16` (R153). -/
def execCrw (cr : CReg) (imm16 : Word) (s : State) : Host.Outcome State Fault Refusal :=
  runCommand (.crw cr imm16) s
    (if cr.writable then .ok (s.writeCR cr imm16) else .error (.illegal .crReadonly))

end Sys2Proof.Machine
end

