-- ==== Sys2Proof/Machine/FieldArith.lean ====
section
/-! DEFINITION. Field arithmetic: `add`, `mult`, `div` over the stored tables (R90 to R93), and GFADD, GFMUL, GFDIV
(R94 to R96). -/

namespace Sys2Proof.Machine

/-- `add(a, b)`: XOR; also used for subtraction (R90). -/
def add (a b : Byte) : Byte := a ^^^ b

/-- The zero check of `mult` and `div` (R91). Its value is an ordinary Boolean; that it takes the same time for every
byte is a requirement on an implementation (R195, log 10). -/
def isZero (v : Byte) : Bool := v == 0x00

theorem ne_zero_of_not_isZero {v : Byte} (h : ¬ isZero v = true) : v ≠ 0 := by
  intro hv; exact h (by simp [isZero, hv])

/-- `mult(a, b)`: 0 if either operand is 0, else `EXP[(LOG[a] + LOG[b]) mod 255]` (R92). -/
def mult (T : Tables) (a b : Byte) : Byte :=
  if ha : isZero a then 0x00
  else if hb : isZero b then 0x00
  else T.expAt (T.logAt a (ne_zero_of_not_isZero ha) + T.logAt b (ne_zero_of_not_isZero hb))

/-- `div(a, b)`: DivisionByZeroError if b is 0, whatever a is; 0 if a is 0; else the log difference, made
non-negative by adding 255, into EXP (R93). -/
def div (T : Tables) (a b : Byte) : Except Cause Byte :=
  if hb : b = 0x00 then .error .divisionByZero
  else if ha : isZero a then .ok 0x00
  else
    let d : Int := (T.logAt a (ne_zero_of_not_isZero ha) : Int) - (T.logAt b hb : Int)
    .ok (T.expAt (if d < 0 then d + 255 else d).toNat)

/-- GFADD fd, fa, fb: `F[rd] <- add(F[ra], F[rb])` (R94). -/
def execGfadd (fd fa fb : FReg) (s : State) : Host.Outcome State Fault Refusal :=
  runCommand (.gfadd fd fa fb) s (.ok (s.setF fd (add (s.getF fa) (s.getF fb))))

/-- GFMUL fd, fa, fb: `F[rd] <- mult(F[ra], F[rb])` (R95). -/
def execGfmul (fd fa fb : FReg) (s : State) : Host.Outcome State Fault Refusal :=
  runCommand (.gfmul fd fa fb) s (.ok (s.setF fd (mult s.tables (s.getF fa) (s.getF fb))))

/-- GFDIV fd, fa, fb: `F[rd] <- div(F[ra], F[rb])`, written only when no error is raised (R96). -/
def execGfdiv (fd fa fb : FReg) (s : State) : Host.Outcome State Fault Refusal :=
  runCommand (.gfdiv fd fa fb) s
    (match div s.tables (s.getF fa) (s.getF fb) with
     | .error c => .error c
     | .ok q => .ok (s.setF fd q))

end Sys2Proof.Machine
end

