-- ==== Sys2Proof/Machine/FieldTables.lean ====
section
/-! DEFINITION. TBUILD (R81). -/

namespace Sys2Proof.Machine

/-- TBUILD: `(EXP, LOG) <- buildTables()`; nothing else is written (R81). -/
def execTbuild (s : State) : Host.Outcome State Fault Refusal :=
  runCommand .tbuild s (.ok (s.setTables buildTables))

end Sys2Proof.Machine
end

