-- ==== Sys2Proof/Machine/Operands.lean ====
section
/-! DEFINITION. Operands in BUF: byte sequences located by control registers (R40) and the share descriptors of
COMBINE (R50). The operand forms of a command word (register numbers, imm8, imm16) are fields of `Instr`, taken out
by the decoder (R61, R63). -/

namespace Sys2Proof.Machine

/-- The sequence of `n` bytes that starts at an address: element `k` is at `base + k` (R40). -/
def State.readBytes (s : State) (base n : Nat) : List Byte :=
  (List.range n).map fun k => s.bufByte (base + k)

/-- A share descriptor: ADDR and LEN (R50). -/
structure Descriptor where
  addr : Nat
  len : Nat
  deriving DecidableEq, Repr

/-- Descriptor `k` of COMBINE's table: the 4 bytes at CR[DESCBASE] + 4k, both fields little-endian (R41, R50). -/
def State.descriptor (s : State) (k : Nat) : Descriptor where
  addr := s.memRead2 (s.descbase.toNat + 4 * k)
  len := s.memRead2 (s.descbase.toNat + 4 * k + 2)

/-- The first `n` descriptors of the table, in order (R141). -/
def State.descriptors (s : State) (n : Nat) : List Descriptor := (List.range n).map s.descriptor

end Sys2Proof.Machine
end

