-- ==== Sys2Proof/Machine/Interpolator.lean ====
section
/-! DEFINITION. The interpolator: `interpolateAt` (R120, R121) and INTERP (R122). -/

namespace Sys2Proof.Machine

/-- The basis term of one sample: the product over the other x samples of
`div(add(x, xs[j]), add(xs[i], xs[j]))`, from 0x01 upward (R120). -/
def lagrangeBasis (T : Tables) (x xi : Byte) (others : List Byte) : Except Cause Byte :=
  others.foldlM (fun basis xj => do
    let quotient ← div T (add x xj) (add xi xj)
    pure (mult T basis quotient)) 0x01

/-- `interpolateAt(xs, ys, x)`: the sum over the samples of `mult(ys[i], basis)`, from 0x00 upward; the product for
sample `i` runs over every place `j ≠ i` (R120). It raises DivisionByZeroError where `div` does (R121). -/
def interpolateAt (T : Tables) (xs ys : List Byte) (x : Byte) : Except Cause Byte :=
  (xs.zip ys).zipIdx.foldlM (fun result sample => do
    let basis ← lagrangeBasis T x sample.1.1 (xs.eraseIdx sample.2)
    pure (add result (mult T sample.1.2 basis))) 0x00

/-- INTERP fd, fa (R122): BAD_LENGTH, then BAD_ADDRESS, then `F[rd] <- interpolateAt(xs, ys, F[ra])` on the
CR[NSAMP] samples at CR[XSBASE] and CR[YSBASE]. -/
def execInterp (fd fa : FReg) (s : State) : Host.Outcome State Fault Refusal :=
  let n := s.nsamp.toNat
  let xsbase := s.xsbase.toNat
  let ysbase := s.ysbase.toNat
  runCommand (.interp fd fa) s
    (if n < 2 then .error (.illegal .badLength)
     else if !(regionInRange xsbase n && regionInRange ysbase n) then .error (.illegal .badAddress)
     else
       match interpolateAt s.tables (s.readBytes xsbase n) (s.readBytes ysbase n) (s.getF fa) with
       | .error c => .error c
       | .ok v => .ok (s.setF fd v))

end Sys2Proof.Machine
end

