-- ==== Sys2Proof/Machine/PolyEngine.lean ====
section
/-! DEFINITION. The polynomial engine: `makePolynomial` and `evaluate` (R110, R111), MKPOLY and EVAL (R112, R113). -/

namespace Sys2Proof.Machine

/-- A polynomial `[a0, a1, ..., ad]`: the intercept a0 and the higher coefficients a1 to ad. It has at least one
coefficient, as `evaluate` needs (R111). -/
structure Poly where
  intercept : Byte
  higher : List Byte
  deriving DecidableEq, Repr

/-- The coefficients in ascending order. -/
def Poly.coeffs (p : Poly) : List Byte := p.intercept :: p.higher

/-- `makePolynomial(intercept, degree)`: the intercept and `degree` draws a1, a2, ... in that order (R110). -/
def makePolynomial (intercept : Byte) (degree : Nat) (r : RandomSource) : Poly × RandomSource :=
  let draws := r.randCoeffs degree
  (⟨intercept, draws.1⟩, draws.2)

/-- Horner's fold: start from the highest coefficient, at each lower one `mult(acc, x)` then `add` it (R111). -/
def horner (T : Tables) (x : Byte) : Byte → List Byte → Byte
  | a, [] => a
  | a, b :: higher => add (mult T (horner T x b higher) x) a

/-- `evaluate(poly, x)`: the intercept at x = 0, else Horner's method (R111). -/
def evaluate (T : Tables) (p : Poly) (x : Byte) : Byte :=
  if x = 0x00 then p.intercept else horner T x p.intercept p.higher

/-- MKPOLY fa, degree (R112): BAD_DEGREE, then BAD_ADDRESS, then the draws, the coefficients to BUF at CR[POLYBASE]
and `CR[POLYLEN] <- deg + 1`. -/
def execMkpoly (fa : FReg) (degree : Byte) (s : State) : Host.Outcome State Fault Refusal :=
  let deg := degree.toNat
  let base := s.polybase.toNat
  runCommand (.mkpoly fa degree) s
    (if deg = 0 then .error (.illegal .badDegree)
     else if !regionInRange base (deg + 1) then .error (.illegal .badAddress)
     else
       let made := makePolynomial (s.getF fa) deg s.rng
       .ok (((s.setRng made.2).writeBytes base made.1.coeffs).writeCR .polylen (BitVec.ofNat 16 (deg + 1))))

/-- EVAL fd, fa (R113): BAD_LENGTH, then BAD_ADDRESS, then `F[rd] <- evaluate(poly, F[ra])` on the CR[POLYLEN]
coefficients at CR[POLYBASE]. -/
def execEval (fd fa : FReg) (s : State) : Host.Outcome State Fault Refusal :=
  let n := s.polylen.toNat
  let base := s.polybase.toNat
  runCommand (.eval fd fa) s
    (if n = 0 then .error (.illegal .badLength)
     else if !regionInRange base n then .error (.illegal .badAddress)
     else
       let poly : Poly := ⟨s.bufByte base, s.readBytes (base + 1) (n - 1)⟩
       .ok (s.setF fd (evaluate s.tables poly (s.getF fa))))

end Sys2Proof.Machine
end

