-- ==== Sys2Proof/Machine/Protocol.lean ====
section
/-! DEFINITION. The split/combine protocol: `split` (R130, R132, R134, R135), SPLIT (R131, R133), `combine` (R140,
R142, R144) and COMBINE (R141, R143). -/

namespace Sys2Proof.Machine

/-- A share: the y-values, then the x-coordinate as the last byte (R50, R130). -/
abbrev Share := List Byte

/-! ### split -/

/-- The validation of `split`, first failing constraint first (R130, R132). -/
def validateSplit (threshold parts secretLength : Nat) : Option ValidationCause :=
  if threshold < 2 then some .threshLow
  else if threshold > 255 then some .threshHigh
  else if parts < threshold then some .partsLtThresh
  else if parts > 255 then some .partsHigh
  else if secretLength = 0 then some .emptySecret
  else none

/-- One polynomial per secret byte, the draws of a byte after all draws of the byte before it (R135). -/
def makePolynomials (degree : Nat) : List Byte → RandomSource → List Poly × RandomSource
  | [], r => ([], r)
  | b :: secret, r =>
    let first := makePolynomial b degree r
    let others := makePolynomials degree secret first.2
    (first.1 :: others.1, others.2)

/-- The share at a coordinate: every polynomial's value there, then the coordinate (R130 steps 3 and 4). -/
def shareAt (T : Tables) (polys : List Poly) (x : Byte) : Share := polys.map (fun p => evaluate T p x) ++ [x]

/-- The coordinates of a permutation draw: `perm[k] + 1` for the first `parts` entries (R134). -/
def coordinates (perm : PermDraw) (parts : Nat) : List Byte := (perm.entries.take parts).map nonzeroByte

/-- Steps 2 to 4 of `split`: the permutation drawn first, then the polynomials, then the shares (R130, R134, R135). -/
def splitShares (T : Tables) (secret : List Byte) (parts threshold : Nat) (r : RandomSource) :
    List Share × RandomSource :=
  let perm := r.randPerm
  let polys := makePolynomials (threshold - 1) secret perm.2
  ((coordinates perm.1 parts).map (shareAt T polys.1), polys.2)

/-- `split(secret, parts, threshold)` (R130). -/
def split (T : Tables) (secret : List Byte) (parts threshold : Nat) (r : RandomSource) :
    Except Cause (List Share × RandomSource) :=
  match validateSplit threshold parts secret.length with
  | some c => .error (.validation c)
  | none => .ok (splitShares T secret parts threshold r)

/-- SPLIT (R131): the validation, the region checks BAD_ADDRESS then OVERLAP (R133), then the shares one after the
other from CR[SHRBASE] (R51). -/
def execSplit (s : State) : Host.Outcome State Fault Refusal :=
  let len := s.seclen.toNat
  let parts := s.parts.toNat
  let threshold := s.thresh.toNat
  let secbase := s.secbase.toNat
  let shrbase := s.shrbase.toNat
  runCommand .split s
    (match validateSplit threshold parts len with
     | some c => .error (.validation c)
     | none =>
       if !(regionInRange secbase len && regionInRange shrbase (parts * (len + 1))) then
         .error (.illegal .badAddress)
       else if regionsOverlap secbase len shrbase (parts * (len + 1)) then .error (.illegal .overlap)
       else
         let made := splitShares s.tables (s.readBytes secbase len) parts threshold s.rng
         .ok ((s.setRng made.2).writeBytes shrbase made.1.flatten))

/-! ### combine -/

/-- The length checks of `combine`: share 0's length against 2, then every other length against it (R142). No length
at all is too few shares. -/
def validateLengths : List Nat → Option ValidationCause
  | [] => some .fewShares
  | first :: others =>
    if first < 2 then some .shortShare
    else if others.any (fun len => len != first) then some .lenMismatch
    else none

/-- The bytes at one place of every share, in the order of the shares (R140). -/
def column (shares : List Share) (i : Nat) : List Byte := shares.filterMap (fun share => share[i]?)

/-- Steps 2 and 3 of `combine` on shares of length `len`: the duplicate check on the trailing bytes (R144), then one
interpolation at 0 per byte position (R140). -/
def combineShares (T : Tables) (len : Nat) (shares : List Share) : Except Cause (List Byte) :=
  let xs := column shares (len - 1)
  if xs.Nodup then (List.range (len - 1)).mapM (fun i => interpolateAt T xs (column shares i) 0x00)
  else .error .duplicateShare

/-- `combine(shares)` (R140): at least 2 shares, the length checks, then steps 2 and 3. -/
def combine (T : Tables) (shares : List Share) : Except Cause (List Byte) :=
  match shares with
  | [] => .error (.validation .fewShares)
  | [_] => .error (.validation .fewShares)
  | first :: second :: others =>
    match validateLengths ((first :: second :: others).map List.length) with
    | some c => .error (.validation c)
    | none => combineShares T first.length (first :: second :: others)

/-- Region checks of COMBINE: every share region and the output region in range, else BAD_ADDRESS; then the output
region apart from every share region and from the descriptor table, else OVERLAP (R143). -/
def checkCombineRegions (secbase descbase n len : Nat) (addrs : List Nat) : Option IllegalCause :=
  if !(addrs.all (fun a => regionInRange a len) && regionInRange secbase (len - 1)) then some .badAddress
  else if addrs.any (fun a => regionsOverlap secbase (len - 1) a len)
      || regionsOverlap secbase (len - 1) descbase (4 * n) then some .overlap
  else none

/-- COMBINE (R141): FEW_SHARES, BAD_ADDRESS for the descriptor table, the length checks, the region checks (R143), then
`combine` steps 2 and 3, the secret to BUF at CR[SECBASE] and `CR[SECLEN] <- M - 1`. The arm for an error of the
interpolation is kept though the duplicate check makes it unreachable (R163). -/
def execCombine (s : State) : Host.Outcome State Fault Refusal :=
  let n := s.nshares.toNat
  let secbase := s.secbase.toNat
  let descbase := s.descbase.toNat
  let descs := s.descriptors n
  let len := (s.descriptor 0).len
  runCommand .combine s
    (if n < 2 then .error (.validation .fewShares)
     else if !regionInRange descbase (4 * n) then .error (.illegal .badAddress)
     else
       match validateLengths (descs.map Descriptor.len) with
       | some c => .error (.validation c)
       | none =>
         match checkCombineRegions secbase descbase n len (descs.map Descriptor.addr) with
         | some c => .error (.illegal c)
         | none =>
           match combineShares s.tables len (descs.map fun d => s.readBytes d.addr len) with
           | .error c => .error c
           | .ok secret => .ok ((s.writeBytes secbase secret).writeCR .seclen (BitVec.ofNat 16 (len - 1))))

end Sys2Proof.Machine
end

