-- ==== Sys2Proof/Machine/Dispatch.lean ====
section
/-! DEFINITION. The meaning of every command, one arm each (R64). -/

namespace Sys2Proof.Machine

def exec (i : Instr) (s : State) : Host.Outcome State Fault Refusal :=
  match i with
  | .tbuild => Sys2Proof.Machine.execTbuild s
  | .gfadd fd fa fb => Sys2Proof.Machine.execGfadd fd fa fb s
  | .gfmul fd fa fb => Sys2Proof.Machine.execGfmul fd fa fb s
  | .gfdiv fd fa fb => Sys2Proof.Machine.execGfdiv fd fa fb s
  | .ldi fd imm8 => Sys2Proof.Machine.execLdi fd imm8 s
  | .ldb fd addr => Sys2Proof.Machine.execLdb fd addr s
  | .stb fs addr => Sys2Proof.Machine.execStb fs addr s
  | .crw cr imm16 => Sys2Proof.Machine.execCrw cr imm16 s
  | .mkpoly fa degree => Sys2Proof.Machine.execMkpoly fa degree s
  | .eval fd fa => Sys2Proof.Machine.execEval fd fa s
  | .interp fd fa => Sys2Proof.Machine.execInterp fd fa s
  | .split => Sys2Proof.Machine.execSplit s
  | .combine => Sys2Proof.Machine.execCombine s

end Sys2Proof.Machine
end

