-- ==== Sys2Proof/Machine/HostPort.lean ====
section
/-! DEFINITION. The host interface (R182): what each host action does to the unit. -/

namespace Sys2Proof.Machine

/-- The error a word that is no command raises (R65, R164). -/
def decodeCause : DecodeError → Cause
  | .reservedOpcode => .illegal .reservedOpcode
  | .reservedBits => .illegal .reservedBits

/-- Decode an accepted command word and execute it, or raise the decode error (R65). -/
def executeWord (w : Command) (s : State) : Host.Outcome State Fault Refusal :=
  match decode w with
  | .ok i => exec i s
  | .error e => .next (s.raise w (decodeCause e))

/-- The host presents a command word. In READY it is executed; otherwise "it is not decoded, not executed, changes no
state (not even ERRCMD), and is not queued for later" (R172, log 2). -/
def presentWord (w : Command) (s : State) : Host.Outcome State Fault Refusal :=
  if s.ready then executeWord w s else .next s

/-- What a read action returns (R182). -/
def State.answer (s : State) (r : Reply) : State := { s with reply := some r }

/-- The effect of one host action at a command boundary (R182). -/
def hostAction (act : HostAction) (s : State) : Host.Outcome State Fault Refusal :=
  match act with
  | .reset => .next s.resetUnit
  | .issue w => presentWord w s
  | .ack => .next s.acknowledge
  | .readF i => .next (s.answer (.byte (s.getF i)))
  | .readCR n => .next (s.answer (.word (s.readCR n)))
  | .readBuf a => .next (s.answer (.byte (s.bufByte a.toNat)))
  | .writeBuf a v => .next (s.writeByte a.toNat v)

/-- The oldest host action is taken and carried out; with none to come the unit is idle and "all state is retained"
(R180, R182, log 1). -/
def takeAction (s : State) : Host.Outcome State Fault Refusal :=
  match s.host with
  | [] => .next s
  | act :: rest => hostAction act { s with host := rest }

/-- The state in which the host's next action is to present a given word and the unit accepts it: the word put before
the host's other actions, and a pending error, if there is one, taken away (log 11). -/
def State.withNextWord (s : State) (w : Command) : State :=
  if s.ready then { s with host := .issue w :: s.host }
  else { s with host := .issue w :: s.host, status := 0, errcmdl := 0, errcmdh := 0 }

end Sys2Proof.Machine
end

