-- ==== Sys2Proof/Machine/Step.lean ====
section
/-! DEFINITION. One step of the machine: one host action (R182). -/

namespace Sys2Proof.Machine

/-- One step: what the host does at one command boundary, a command it issues executed to its end (R47, R60, R182). -/
def step (s : State) : Host.Outcome State Fault Refusal := takeAction s

/-- The word of an instruction placed where the next step finds it. The unit fetches nothing (R16): the host presents
a word, so the word becomes the host's next action (log 11). -/
def State.withFetchWord (s : State) (nbits w : Nat) : State :=
  s.withNextWord (BitVec.ofNat 32 (w % 2 ^ nbits))

end Sys2Proof.Machine
end

