-- ==== Sys2Proof/Safety.lean ====
section
/-! DEFINITION. What the statements call a good state and a safe run, and the words they use: the invariant of a
command boundary (R10, R18, R19, R22), the conditions under which SPLIT and COMBINE execute (R132, R133, R142 to R144),
and the field written without tables (R99, R111). -/

namespace Sys2Proof.Machine

/-! ### The invariant of a command boundary -/

/-- The tables are the constant tables of rules R82 and R83, as at every command boundary (R10). -/
def State.TablesBuilt (s : State) : Prop := s.tables = standardTables

/-- STATUS is one that reset, ACK or error entry writes: no error, or the word of one cause (R18, R168, R171). -/
def State.StatusLegal (s : State) : Prop := s.status = 0 ∨ ∃ c : Cause, s.status = c.status

/-- "While ERR = 0 they read 0": ERRCMDL and ERRCMDH (R19). -/
def State.ErrcmdClear (s : State) : Prop := statusErr s.status = 0 → s.errcmdl = 0 ∧ s.errcmdh = 0

/-- What holds at every command boundary: the tables are built (R10), STATUS is legal (R18), ERRCMD reads 0 while no
error is pending (R19), and the stored bytes of BUF are in canonical form, inside BUF (R22). -/
structure State.Good (s : State) : Prop where
  tablesBuilt : s.TablesBuilt
  statusLegal : s.StatusLegal
  errcmdClear : s.ErrcmdClear
  bufWf : Memory.wf s.buf

/-- A safe run of the unit never reaches FATAL, which only reset leaves (R166). -/
def State.Safe (s : State) : Prop := statusRun s.status ≠ runFatal

/-- The state with an error pending: STATUS and the command word recorded, nothing else changed (R168). -/
def State.withError (s : State) (w : Command) (status : Word) : State :=
  { s with status := status, errcmdl := w.extractLsb' 0 16, errcmdh := w.extractLsb' 16 16 }

/-- The F register a command writes, if it writes one (R15). -/
def destination : Instr → Option FReg
  | .tbuild => none
  | .gfadd fd _ _ => some fd
  | .gfmul fd _ _ => some fd
  | .gfdiv fd _ _ => some fd
  | .ldi fd _ => some fd
  | .ldb fd _ => some fd
  | .stb _ _ => none
  | .crw _ _ => none
  | .mkpoly _ _ => none
  | .eval fd _ => some fd
  | .interp fd _ => some fd
  | .split => none
  | .combine => none

/-! ### When SPLIT and COMBINE execute -/

/-- Two non-empty regions share no address (R49). -/
def Apart (b1 n1 b2 n2 : Nat) : Prop := b1 + n1 ≤ b2 ∨ b2 + n2 ≤ b1

/-- The five constraints of `split` hold (R132). -/
structure State.SplitValid (s : State) : Prop where
  threshLow : 2 ≤ s.thresh.toNat
  threshHigh : s.thresh.toNat ≤ 255
  partsGeThresh : s.thresh.toNat ≤ s.parts.toNat
  partsHigh : s.parts.toNat ≤ 255
  secretNonempty : 1 ≤ s.seclen.toNat

/-- SPLIT passes its region checks too (R133). -/
structure State.SplitAccepted (s : State) : Prop extends s.SplitValid where
  secretInRange : s.secbase.toNat + s.seclen.toNat ≤ 65536
  sharesInRange : s.shrbase.toNat + s.parts.toNat * (s.seclen.toNat + 1) ≤ 65536
  apart : Apart s.secbase.toNat s.seclen.toNat s.shrbase.toNat (s.parts.toNat * (s.seclen.toNat + 1))

/-- The byte at place `i` of the share that descriptor `k` names (R50). -/
def State.shareByte (s : State) (k i : Nat) : Byte := s.bufByte ((s.descriptor k).addr + i)

/-- COMBINE passes its count, table and length checks with shares of length `len` (R141, R142). -/
structure State.CombineValid (s : State) (len : Nat) : Prop where
  count : 2 ≤ s.nshares.toNat
  tableInRange : s.descbase.toNat + 4 * s.nshares.toNat ≤ 65536
  long : 2 ≤ len
  lengths : ∀ k < s.nshares.toNat, (s.descriptor k).len = len

/-- COMBINE passes its region checks too (R143). -/
structure State.CombineRegions (s : State) (len : Nat) : Prop extends s.CombineValid len where
  sharesInRange : ∀ k < s.nshares.toNat, (s.descriptor k).addr + len ≤ 65536
  outputInRange : s.secbase.toNat + (len - 1) ≤ 65536
  apartFromShares : ∀ k < s.nshares.toNat, Apart s.secbase.toNat (len - 1) (s.descriptor k).addr len
  apartFromTable : Apart s.secbase.toNat (len - 1) s.descbase.toNat (4 * s.nshares.toNat)

/-- COMBINE passes every check: the coordinates are pairwise distinct too (R144). -/
structure State.CombineAccepted (s : State) (len : Nat) : Prop extends s.CombineRegions len where
  distinct : ∀ j < s.nshares.toNat, ∀ k < s.nshares.toNat, j ≠ k →
    s.shareByte j (len - 1) ≠ s.shareByte k (len - 1)

/-! ### The field without tables -/

/-- The polynomial of `v` times x, modulo x^8+x^4+x^3+x+1 (R1, R8). -/
def timesX (v : Byte) : Byte := if v.msb then (v <<< 1) ^^^ 0x1B else v <<< 1

/-- "The product of the polynomials of a and b over GF(2) reduced modulo 0x11B" (R99): the sum of a times x^i over the
bits i of b that are 1. -/
def polyProduct (a b : Byte) : Byte :=
  (List.range 8).foldl (fun sum i => if b.getLsbD i then sum ^^^ timesX^[i] a else sum) 0

/-- `x` to the power `n`. -/
def fieldPow (x : Byte) : Nat → Byte
  | 0 => 1
  | n + 1 => polyProduct (fieldPow x n) x

/-- `a0 + a1·x + a2·x² + ... + ad·x^d` in the field (R111). -/
def polyValue (coeffs : List Byte) (x : Byte) : Byte :=
  coeffs.zipIdx.foldl (fun sum term => sum ^^^ polyProduct term.1 (fieldPow x term.2)) 0

end Sys2Proof.Machine
end

