-- ==== Sys2Proof/Certificates/Slice0/Obligations.lean ====
section
/-! DEFINITION. The statements about the machine that the provers are asked to prove. -/

open Sys2Proof Sys2Proof.Machine

/-! ### Encoding -/

/-- Decoding the word of an instruction gives the instruction back, with every operand at every value (R61 to R65). -/
def Obligations.DecodeAfterEncode : Prop :=
  ∀ i : Instr, decode (encode i) = .ok i

/-- A word that decodes is the word of the instruction it decodes to, so ERRCMD can record it (R62, R65, log 9). -/
def Obligations.EncodeAfterDecode : Prop :=
  ∀ (w : Command) (i : Instr), decode w = .ok i → encode i = w

/-- The decoder accepts exactly the words with a listed opcode and zero must-be-zero bits, and names the reason of
every refusal (R65, R66, R68). -/
def Obligations.DecoderRefusesByName : Prop :=
  ∀ w : Command,
    (formatOf (opcodeField w) = none → decode w = .error .reservedOpcode) ∧
    ∀ fmt, formatOf (opcodeField w) = some fmt →
      (reservedBitsZero fmt w = false → decode w = .error .reservedBits) ∧
      (reservedBitsZero fmt w = true → ∃ i, decode w = .ok i)

/-- Two rows of the opcode map never match one word (R64). -/
def Obligations.OpcodeRowsDisjoint : Prop :=
  opcodeMap.Pairwise fun r1 r2 => ∀ w : Command, ¬ (w &&& r1.mask = r1.pattern ∧ w &&& r2.mask = r2.pattern)

/-- The words of rule R70's table decode to what they stand for. -/
def Obligations.SpecWordsDecode : Prop :=
  decode 0x01000000 = .ok .tbuild ∧
  decode 0x10430000 = .ok (.gfadd 4 3 0) ∧
  decode 0x11201000 = .ok (.gfmul 2 0 1) ∧
  decode 0x12321000 = .ok (.gfdiv 3 2 1) ∧
  decode 0x20000057 = .ok (.ldi 0 0x57) ∧
  decode 0x20F000FF = .ok (.ldi 15 0xFF) ∧
  decode 0x21501234 = .ok (.ldb 5 0x1234) ∧
  decode 0x2250FFFF = .ok (.stb 5 0xFFFF) ∧
  decode 0x23700003 = .ok (.crw .thresh 3) ∧
  decode 0x23F00100 = .ok (.crw .nsamp 0x0100) ∧
  decode 0x30010002 = .ok (.mkpoly 1 2) ∧
  decode 0x31270000 = .ok (.eval 2 7) ∧
  decode 0x40090000 = .ok (.interp 0 9) ∧
  decode 0x50000000 = .ok .split ∧
  decode 0x51000000 = .ok .combine

/-! ### The host interface -/

/-- In READY a step executes the command the host presents, with the host's other actions kept (R65, R182). -/
def Obligations.StepRunsIssuedCommand : Prop :=
  ∀ (s : State) (w : Command) (i : Instr) (rest : List HostAction),
    s.host = .issue w :: rest → statusRun s.status = runReady → decode w = .ok i →
    step s = exec i { s with host := rest }

/-- A word placed for the next step runs as the instruction it encodes: in READY with the rest of the state as it is,
otherwise with the pending error taken away (the model's choice, log 11). -/
def Obligations.PlacedWordRunsNext : Prop :=
  ∀ (s : State) (i : Instr),
    (statusRun s.status = runReady → step (s.withFetchWord 32 (encode i).toNat) = exec i s) ∧
    (statusRun s.status ≠ runReady →
      step (s.withFetchWord 32 (encode i).toNat) = exec i { s with status := 0, errcmdl := 0, errcmdh := 0 })

/-- "A word with a reserved opcode raises IllegalCommand(RESERVED_OPCODE)", the all-zero and the all-one word among
them (R66). -/
def Obligations.ReservedOpcodeRaises : Prop :=
  ∀ (s : State) (w : Command) (rest : List HostAction),
    s.host = .issue w :: rest → statusRun s.status = runReady →
    (opcodeField w ∉ ([0x01, 0x10, 0x11, 0x12, 0x20, 0x21, 0x22, 0x23, 0x30, 0x31, 0x40, 0x50, 0x51] : List Byte) ∨
      w = 0x00000000 ∨ w = 0xFFFFFFFF) →
    step s = .next (({ s with host := rest } : State).withError w 0x0114)

/-- "A word with a listed opcode and a nonzero bit in a must-be-zero position of its format raises
IllegalCommand(RESERVED_BITS)" (R68). -/
def Obligations.ReservedBitsRaise : Prop :=
  ∀ (s : State) (w : Command) (rest : List HostAction) (fmt : Format),
    s.host = .issue w :: rest → statusRun s.status = runReady →
    formatOf (opcodeField w) = some fmt → reservedBitsZero fmt w = false →
    step s = .next (({ s with host := rest } : State).withError w 0x0124)

/-- In HELD and FATAL a presented command "is not decoded, not executed, changes no state (not even ERRCMD), and is
not queued for later" (R172). -/
def Obligations.NotAcceptedOutsideReady : Prop :=
  ∀ (s : State) (w : Command) (rest : List HostAction),
    s.host = .issue w :: rest → statusRun s.status = runHeld ∨ statusRun s.status = runFatal →
    step s = .next { s with host := rest }

/-- ACK clears STATUS and ERRCMD in HELD, and does nothing in READY and in FATAL (R171). -/
def Obligations.AckReturnsFromHeldOnly : Prop :=
  ∀ (s : State) (rest : List HostAction), s.host = .ack :: rest →
    (statusRun s.status = runHeld →
      step s = .next { s with host := rest, status := 0, errcmdl := 0, errcmdh := 0 }) ∧
    (statusRun s.status = runReady → step s = .next { s with host := rest }) ∧
    (statusRun s.status = runFatal → step s = .next { s with host := rest })

/-- Reset leaves every register and both tables at their reset values, in any run state; a BUF byte then reads as a
value of its own that nothing fixes (R190, R191; the free value is the model's, log 3). -/
def Obligations.ResetLeavesResetValues : Prop :=
  ∀ (s : State) (rest : List HostAction), s.host = .reset :: rest →
    ∃ t, step s = .next t ∧ t.tables = standardTables ∧ (∀ i, t.getF i = 0x00) ∧
      t.readCR .cap = 0x0001 ∧ (∀ n, n ≠ .cap → t.readCR n = 0x0000) ∧
      (∀ a, t.bufByte a = Config.bufAfterReset (s.resets + 1) a) ∧ t.host = rest ∧ t.rng = s.rng

/-- A read returns the value and changes nothing else, in any run state (R182; where the answer is kept is the model's
choice, log 5). -/
def Obligations.HostReadsOnlyAnswer : Prop :=
  ∀ (s : State) (rest : List HostAction),
    (∀ i, s.host = .readF i :: rest → step s = .next { s with host := rest, reply := some (.byte (s.getF i)) }) ∧
    (∀ n, s.host = .readCR n :: rest → step s = .next { s with host := rest, reply := some (.word (s.readCR n)) }) ∧
    (∀ a, s.host = .readBuf a :: rest →
      step s = .next { s with host := rest, reply := some (.byte (s.bufByte a.toNat)) })

/-- A host write stores the one byte and has no other effect, in any run state (R46, R182). -/
def Obligations.HostWriteStoresOneByte : Prop :=
  ∀ (s : State) (a : Word) (v : Byte) (rest : List HostAction), s.host = .writeBuf a v :: rest →
    ∃ t, step s = .next t ∧ t = { s with host := rest, buf := t.buf } ∧ t.bufByte a.toNat = v ∧
      ∀ b, b ≠ a.toNat → t.bufByte b = s.bufByte b

/-! ### Errors -/

/-- Error entry writes the class, the sub-cause, the run state and the command word, and nothing else (R168); STATUS
bits [15:10] read 0 after it (R18). -/
def Obligations.ErrorEntryWrites : Prop :=
  ∀ (s : State) (w : Command) (c : Cause),
    statusErr (s.raise w c).status = c.err ∧ statusSub (s.raise w c).status = c.sub ∧
    statusRun (s.raise w c).status = (if c = .divisionByZero then runFatal else runHeld) ∧
    statusZero (s.raise w c).status = 0 ∧
    (s.raise w c).errcmdl = w.extractLsb' 0 16 ∧ (s.raise w c).errcmdh = w.extractLsb' 16 16 ∧
    s.raise w c = { s with
      status := (s.raise w c).status, errcmdl := (s.raise w c).errcmdl, errcmdh := (s.raise w c).errcmdh }

/-- The STATUS word of every error, from the codes of rules R160 to R164 and the fields of rule R18. -/
def Obligations.StatusWordsOfErrors : Prop :=
  (Cause.validation .threshLow).status = 0x0111 ∧ (Cause.validation .threshHigh).status = 0x0121 ∧
  (Cause.validation .partsLtThresh).status = 0x0131 ∧ (Cause.validation .partsHigh).status = 0x0141 ∧
  (Cause.validation .emptySecret).status = 0x0151 ∧ (Cause.validation .fewShares).status = 0x0161 ∧
  (Cause.validation .shortShare).status = 0x0171 ∧ (Cause.validation .lenMismatch).status = 0x0181 ∧
  Cause.duplicateShare.status = 0x0102 ∧ Cause.divisionByZero.status = 0x0203 ∧
  (Cause.illegal .reservedOpcode).status = 0x0114 ∧ (Cause.illegal .reservedBits).status = 0x0124 ∧
  (Cause.illegal .crReadonly).status = 0x0134 ∧ (Cause.illegal .badAddress).status = 0x0144 ∧
  (Cause.illegal .badLength).status = 0x0154 ∧ (Cause.illegal .badDegree).status = 0x0164 ∧
  (Cause.illegal .overlap).status = 0x0174

/-- Every command ends in a next state; either it leaves STATUS and ERRCMD alone, or it raised one error and wrote
nothing else: no F register, no operand register, no BUF byte, no table, and no draw taken (R167). -/
def Obligations.ErrorsArePrecise : Prop :=
  ∀ (i : Instr) (s : State), ∃ t, exec i s = .next t ∧
    ((t.status = s.status ∧ t.errcmdl = s.errcmdl ∧ t.errcmdh = s.errcmdh) ∨
      ∃ c : Cause, t = s.withError (encode i) c.status)

/-- After ACK every piece of state has the value it had before the failing command (R173). -/
def Obligations.AckUndoesFailedCommand : Prop :=
  ∀ (i : Instr) (s t : State), s.Good → statusRun s.status = runReady →
    exec i s = .next t → statusRun t.status = runHeld → t.acknowledge = s

/-- Only GFDIV with a zero divisor and INTERP on a repeated x sample reach FATAL; inside COMBINE the division error
cannot occur (R144, R160, R163). -/
def Obligations.FatalOnlyFromDivision : Prop :=
  ∀ (i : Instr) (s t : State), statusRun s.status = runReady → exec i s = .next t →
    statusRun t.status = runFatal →
    (∃ fd fa fb, i = .gfdiv fd fa fb ∧ s.getF fb = 0x00) ∨
    (∃ fd fa, i = .interp fd fa ∧ ¬ (s.readBytes s.xsbase.toNat s.nsamp.toNat).Nodup)

/-- A pending error stays, and with it all of F, the control registers and the tables, until the host ACKs (from HELD)
or resets (R166, R172). -/
def Obligations.PendingErrorStays : Prop :=
  ∀ (s t : State) (act : HostAction) (rest : List HostAction),
    s.host = act :: rest → step s = .next t → act ≠ .reset →
    (statusRun s.status = runFatal ∨ (statusRun s.status = runHeld ∧ act ≠ .ack)) →
    t = { s with host := rest, reply := t.reply, buf := t.buf } ∧
      ((∀ a v, act ≠ .writeBuf a v) → t.buf = s.buf)

/-! ### The invariant of a command boundary -/

/-- The state after reset is good. -/
def Obligations.GoodAtReset : Prop := State.reset.Good

/-- Every step from a good state ends in a good state: the tables stay those of rules R82 and R83 (R10), STATUS stays
legal (R18), ERRCMD reads 0 while no error is pending (R19), BUF stays in canonical form. -/
def Obligations.GoodKeptByStep : Prop :=
  ∀ s t : State, s.Good → step s = .next t → t.Good

/-- In a good state "RUN = READY if and only if ERR = 0", and STATUS bits [15:10] read 0 (R18). -/
def Obligations.ReadyIffNoError : Prop :=
  ∀ s : State, s.Good →
    (statusRun s.status = runReady ↔ statusErr s.status = 0) ∧ statusZero s.status = 0 ∧
    (statusErr s.status = 0 → statusSub s.status = 0)

/-! ### What writes each kind of state -/

/-- An F register changes only as the destination of LDI, LDB, GFADD, GFMUL, GFDIV, EVAL or INTERP (R15). -/
def Obligations.OnlyDestinationFChanges : Prop :=
  ∀ (i : Instr) (s t : State) (r : FReg), exec i s = .next t → destination i ≠ some r → t.getF r = s.getF r

/-- CR[4] to CR[15] change only by CRW to them, POLYLEN also by MKPOLY and SECLEN also by COMBINE; CAP never, CRW to it
included (R17, R20). -/
def Obligations.OnlyTheseWriteControlRegisters : Prop :=
  ∀ (i : Instr) (s t : State) (n : CReg), exec i s = .next t → n.writable = true ∨ n = .cap →
    (n ≠ .cap → ∀ v, i ≠ .crw n v) → ¬ (n = .polylen ∧ ∃ fa deg, i = .mkpoly fa deg) → ¬ (n = .seclen ∧ i = .combine) →
    t.readCR n = s.readCR n

/-- A BUF byte changes only by STB, MKPOLY, SPLIT and COMBINE (R22, R45). -/
def Obligations.OnlyTheseWriteBuf : Prop :=
  ∀ (i : Instr) (s t : State), exec i s = .next t →
    (∀ fs a, i ≠ .stb fs a) → (∀ fa deg, i ≠ .mkpoly fa deg) → i ≠ .split → i ≠ .combine →
    ∀ a, t.bufByte a = s.bufByte a

/-- Only MKPOLY and SPLIT draw (R176). -/
def Obligations.OnlyMkpolyAndSplitDraw : Prop :=
  ∀ (i : Instr) (s t : State), exec i s = .next t → (∀ fa deg, i ≠ .mkpoly fa deg) → i ≠ .split →
    t.rng = s.rng

/-! ### The tables and the field -/

/-- TBUILD from any state leaves the tables of rules R82 and R83 and writes nothing else (R81). -/
def Obligations.TbuildRebuildsTables : Prop :=
  ∀ s : State, exec .tbuild s = .next { s with tables := standardTables }

/-- "EXP[LOG[v]] == v for all v in 1..255", and LOG[EXP[i]] = i for all i in 0..254 (R12, R84). -/
def Obligations.TablesAreInverse : Prop :=
  (∀ (v : Byte) (hv : v ≠ 0), standardTables.expAt (standardTables.logAt v hv) = v) ∧
  ∀ i < 255, ∃ h : standardTables.expAt i ≠ 0, standardTables.logAt (standardTables.expAt i) h = i

/-- The document's testable identities, over all bytes (R98). -/
def Obligations.FieldIdentities : Prop :=
  ∀ a b : Byte, add a a = 0x00 ∧ mult standardTables a 0x00 = 0x00 ∧ mult standardTables a 0x01 = a ∧
    (b ≠ 0 → div standardTables (mult standardTables a b) b = .ok a) ∧
    div standardTables a 0x00 = .error .divisionByZero

/-- The further laws: `add` and `mult` are commutative and associative, `mult` distributes over `add`, the identities,
no zero divisors, `div`, and `mult` is the product of polynomials modulo 0x11B (R99). -/
def Obligations.FieldLaws : Prop :=
  ∀ a b c : Byte, add a b = add b a ∧ add (add a b) c = add a (add b c) ∧ add a 0x00 = a ∧
    mult standardTables a b = mult standardTables b a ∧
    mult standardTables (mult standardTables a b) c = mult standardTables a (mult standardTables b c) ∧
    mult standardTables a (add b c) = add (mult standardTables a b) (mult standardTables a c) ∧
    mult standardTables 0x01 a = a ∧
    (mult standardTables a b = 0x00 → a = 0x00 ∨ b = 0x00) ∧
    (a ≠ 0 → div standardTables a a = .ok 0x01) ∧ div standardTables a 0x01 = .ok a ∧
    (b ≠ 0 → ∃ q, div standardTables a b = .ok q ∧ mult standardTables q b = a) ∧
    mult standardTables a b = polyProduct a b

/-! ### Field arithmetic commands -/

/-- GFADD writes the XOR of its sources to its destination and nothing else (R94). -/
def Obligations.GfaddResult : Prop :=
  ∀ (fd fa fb : FReg) (s : State), ∃ t, exec (.gfadd fd fa fb) s = .next t ∧ t = { s with f := t.f } ∧
    t.getF fd = s.getF fa ^^^ s.getF fb ∧ ∀ r, r ≠ fd → t.getF r = s.getF r

/-- GFMUL writes the product of its sources as polynomials modulo 0x11B and nothing else (R95, R99). -/
def Obligations.GfmulResult : Prop :=
  ∀ (fd fa fb : FReg) (s : State), s.TablesBuilt →
    ∃ t, exec (.gfmul fd fa fb) s = .next t ∧ t = { s with f := t.f } ∧
      t.getF fd = polyProduct (s.getF fa) (s.getF fb) ∧ ∀ r, r ≠ fd → t.getF r = s.getF r

/-- GFDIV with a nonzero divisor writes the quotient, the byte whose product with the divisor is the dividend, and
nothing else (R96, R99). -/
def Obligations.GfdivResult : Prop :=
  ∀ (fd fa fb : FReg) (s : State), s.TablesBuilt → s.getF fb ≠ 0x00 →
    ∃ t, exec (.gfdiv fd fa fb) s = .next t ∧ t = { s with f := t.f } ∧
      polyProduct (t.getF fd) (s.getF fb) = s.getF fa ∧ ∀ r, r ≠ fd → t.getF r = s.getF r

/-- GFDIV by zero raises DivisionByZeroError whatever the dividend is; the unit is FATAL and F is unchanged
(R93, R96). -/
def Obligations.GfdivByZeroIsFatal : Prop :=
  ∀ (fd fa fb : FReg) (s : State), s.getF fb = 0x00 →
    exec (.gfdiv fd fa fb) s = .next (s.withError (encode (.gfdiv fd fa fb)) 0x0203)

/-! ### Data movement and control registers -/

/-- LDI writes its immediate and LDB the BUF byte at its address to the destination register and nothing else
(R150, R151). -/
def Obligations.LoadResult : Prop :=
  ∀ (fd : FReg) (s : State),
    (∀ imm8 : Byte, ∃ t, exec (.ldi fd imm8) s = .next t ∧ t = { s with f := t.f } ∧ t.getF fd = imm8 ∧
      ∀ r, r ≠ fd → t.getF r = s.getF r) ∧
    (∀ addr : Word, ∃ t, exec (.ldb fd addr) s = .next t ∧ t = { s with f := t.f } ∧
      t.getF fd = s.bufByte addr.toNat ∧ ∀ r, r ≠ fd → t.getF r = s.getF r)

/-- STB stores its source register at its address and changes no other byte and nothing else (R152). -/
def Obligations.StbResult : Prop :=
  ∀ (fs : FReg) (addr : Word) (s : State), ∃ t, exec (.stb fs addr) s = .next t ∧ t = { s with buf := t.buf } ∧
    t.bufByte addr.toNat = s.getF fs ∧ ∀ a, a ≠ addr.toNat → t.bufByte a = s.bufByte a

/-- CRW to CR[4] to CR[15] stores any value in that register and changes nothing else (R17, R153). -/
def Obligations.CrwResult : Prop :=
  ∀ (n : CReg) (v : Word) (s : State), n ≠ .status → n ≠ .errcmdl → n ≠ .errcmdh → n ≠ .cap →
    ∃ t, exec (.crw n v) s = .next t ∧ t.readCR n = v ∧ (∀ m, m ≠ n → t.readCR m = s.readCR m) ∧
      t.tables = s.tables ∧ t.f = s.f ∧ t.buf = s.buf ∧ t.host = s.host ∧ t.reply = s.reply ∧
      t.resets = s.resets ∧ t.rng = s.rng

/-- CRW to STATUS, ERRCMDL, ERRCMDH or CAP raises IllegalCommand(CR_READONLY) and changes no register (R153). -/
def Obligations.CrwReadOnlyRaises : Prop :=
  ∀ (n : CReg) (v : Word) (s : State), n = .status ∨ n = .errcmdl ∨ n = .errcmdh ∨ n = .cap →
    exec (.crw n v) s = .next (s.withError (encode (.crw n v)) 0x0134)

/-- A 2-byte read is its two bytes, the one at the lower address the low one; a 2-byte write is read back by it and is
two 1-byte accesses (R41, R42). Descriptor `k` of the share table is two such reads: ADDR at DESCBASE + 4k and LEN two
bytes later (R50). -/
def Obligations.TwoByteAccess : Prop :=
  ∀ s : State,
    (∀ a, s.memRead2 a = (s.bufByte a).toNat + 256 * (s.bufByte (a + 1)).toNat) ∧
    (∀ k, (s.descriptor k).addr =
        (s.bufByte (s.descbase.toNat + 4 * k)).toNat + 256 * (s.bufByte (s.descbase.toNat + 4 * k + 1)).toNat ∧
      (s.descriptor k).len =
        (s.bufByte (s.descbase.toNat + 4 * k + 2)).toNat + 256 * (s.bufByte (s.descbase.toNat + 4 * k + 3)).toNat) ∧
    ∀ (a : Nat) (v : Word), a + 2 ≤ 65536 →
      (s.memWrite2 a v).memRead2 a = v.toNat ∧
      (s.memWrite2 a v).bufByte a = v.extractLsb' 0 8 ∧ (s.memWrite2 a v).bufByte (a + 1) = v.extractLsb' 8 8 ∧
      ∀ b, b ≠ a → b ≠ a + 1 → (s.memWrite2 a v).bufByte b = s.bufByte b

/-! ### The polynomial engine -/

/-- MKPOLY with a degree of at least 1 that fits: the intercept and `degree` nonzero bytes to BUF from POLYBASE,
POLYLEN = degree + 1, and nothing else but the draws; where the random source is given the draws, the bytes are
those draws in order and exactly those are taken (R112, R176; the supplied draws are the model's form, log 4). -/
def Obligations.MkpolyResult : Prop :=
  ∀ (fa : FReg) (degree : Byte) (s : State), degree ≠ 0 → s.polybase.toNat + degree.toNat + 1 ≤ 65536 →
    ∃ t, exec (.mkpoly fa degree) s = .next t ∧
      t = { s with buf := t.buf, polylen := t.polylen, rng := t.rng } ∧
      t.polylen.toNat = degree.toNat + 1 ∧ t.bufByte s.polybase.toNat = s.getF fa ∧
      (∀ j, 1 ≤ j → j ≤ degree.toNat → t.bufByte (s.polybase.toNat + j) ≠ 0x00) ∧
      (∀ a, a < s.polybase.toNat ∨ s.polybase.toNat + degree.toNat < a → t.bufByte a = s.bufByte a) ∧
      ∀ draws rest, s.rng.coeffs = draws ++ rest → draws.length = degree.toNat →
        t.rng = { s.rng with coeffs := rest } ∧
        ∀ (j : Nat) (hj : j < draws.length),
          t.bufByte (s.polybase.toNat + j + 1) = BitVec.ofNat 8 (draws[j].val + 1)

/-- MKPOLY raises BAD_DEGREE for degree 0, then BAD_ADDRESS where the coefficients do not fit, before any draw or
write (R112). -/
def Obligations.MkpolyRefusals : Prop :=
  ∀ (fa : FReg) (degree : Byte) (s : State),
    (degree = 0 → exec (.mkpoly fa degree) s = .next (s.withError (encode (.mkpoly fa degree)) 0x0164)) ∧
    (degree ≠ 0 → 65536 < s.polybase.toNat + degree.toNat + 1 →
      exec (.mkpoly fa degree) s = .next (s.withError (encode (.mkpoly fa degree)) 0x0144))

/-- EVAL writes a0 + a1·x + ... + ad·x^d, for the POLYLEN coefficients at POLYBASE and the point in its source
register, and nothing else (R111, R113). -/
def Obligations.EvalResult : Prop :=
  ∀ (fd fa : FReg) (s : State), s.TablesBuilt → 1 ≤ s.polylen.toNat →
    s.polybase.toNat + s.polylen.toNat ≤ 65536 →
    ∃ t, exec (.eval fd fa) s = .next t ∧ t = { s with f := t.f } ∧
      t.getF fd = polyValue (s.readBytes s.polybase.toNat s.polylen.toNat) (s.getF fa) ∧
      ∀ r, r ≠ fd → t.getF r = s.getF r

/-- EVAL raises BAD_LENGTH for POLYLEN = 0, then BAD_ADDRESS where the coefficients run past BUF (R113). -/
def Obligations.EvalRefusals : Prop :=
  ∀ (fd fa : FReg) (s : State),
    (s.polylen = 0 → exec (.eval fd fa) s = .next (s.withError (encode (.eval fd fa)) 0x0154)) ∧
    (s.polylen ≠ 0 → 65536 < s.polybase.toNat + s.polylen.toNat →
      exec (.eval fd fa) s = .next (s.withError (encode (.eval fd fa)) 0x0144))

/-! ### The interpolator -/

/-- INTERP on distinct x samples writes, at the queried point, the value of every polynomial with at most NSAMP
coefficients through the samples, and nothing else (R121, R122). That the Lagrange formula gives that value is the
spec's inference from general knowledge, which it marks so in rule R121 (G2); the statement rests on it. -/
def Obligations.InterpResult : Prop :=
  ∀ (fd fa : FReg) (s : State), s.TablesBuilt → 2 ≤ s.nsamp.toNat →
    s.xsbase.toNat + s.nsamp.toNat ≤ 65536 → s.ysbase.toNat + s.nsamp.toNat ≤ 65536 →
    (s.readBytes s.xsbase.toNat s.nsamp.toNat).Nodup →
    ∃ t, exec (.interp fd fa) s = .next t ∧ t = { s with f := t.f } ∧
      (∀ coeffs : List Byte, coeffs.length ≤ s.nsamp.toNat →
        (∀ k < s.nsamp.toNat,
          polyValue coeffs (s.bufByte (s.xsbase.toNat + k)) = s.bufByte (s.ysbase.toNat + k)) →
        t.getF fd = polyValue coeffs (s.getF fa)) ∧
      ∀ r, r ≠ fd → t.getF r = s.getF r

/-- INTERP on a repeated x sample raises DivisionByZeroError whatever the point and the y samples are; the unit is
FATAL and F is unchanged (R121, R122, R163). -/
def Obligations.InterpDuplicateIsFatal : Prop :=
  ∀ (fd fa : FReg) (s : State), 2 ≤ s.nsamp.toNat →
    s.xsbase.toNat + s.nsamp.toNat ≤ 65536 → s.ysbase.toNat + s.nsamp.toNat ≤ 65536 →
    (∃ j k, j < k ∧ k < s.nsamp.toNat ∧ s.bufByte (s.xsbase.toNat + j) = s.bufByte (s.xsbase.toNat + k)) →
    exec (.interp fd fa) s = .next (s.withError (encode (.interp fd fa)) 0x0203)

/-- INTERP raises BAD_LENGTH for fewer than 2 samples, then BAD_ADDRESS where a vector runs past BUF (R122). -/
def Obligations.InterpRefusals : Prop :=
  ∀ (fd fa : FReg) (s : State),
    (s.nsamp.toNat < 2 → exec (.interp fd fa) s = .next (s.withError (encode (.interp fd fa)) 0x0154)) ∧
    (2 ≤ s.nsamp.toNat →
      65536 < s.xsbase.toNat + s.nsamp.toNat ∨ 65536 < s.ysbase.toNat + s.nsamp.toNat →
      exec (.interp fd fa) s = .next (s.withError (encode (.interp fd fa)) 0x0144))

/-! ### SPLIT -/

/-- SPLIT that passes its checks writes PARTS shares of length SECLEN + 1: there are distinct nonzero coordinates, one
per share, and one polynomial of THRESH coefficients per secret byte, with that byte as intercept and every other
coefficient nonzero, so that share k holds the polynomials' values at coordinate k and then the coordinate. It changes
no other byte and nothing else but the draws (R131, R134, R136). -/
def Obligations.SplitWritesShares : Prop :=
  ∀ s : State, s.TablesBuilt → s.SplitAccepted →
    ∃ t, exec .split s = .next t ∧ t = { s with buf := t.buf, rng := t.rng } ∧
      (∀ a, a < s.shrbase.toNat ∨ s.shrbase.toNat + s.parts.toNat * (s.seclen.toNat + 1) ≤ a →
        t.bufByte a = s.bufByte a) ∧
      ∃ (xs : List Byte) (polys : List (List Byte)),
        xs.length = s.parts.toNat ∧ xs.Nodup ∧ (∀ x ∈ xs, x ≠ 0x00) ∧ polys.length = s.seclen.toNat ∧
        (∀ (i : Nat) (hi : i < polys.length), polys[i].length = s.thresh.toNat ∧
          polys[i].head? = some (s.bufByte (s.secbase.toNat + i)) ∧ ∀ c ∈ polys[i].tail, c ≠ 0x00) ∧
        ∀ (k : Nat) (hk : k < xs.length),
          (∀ (i : Nat) (hi : i < polys.length),
            t.bufByte (s.shrbase.toNat + k * (s.seclen.toNat + 1) + i) = polyValue polys[i] xs[k]) ∧
          t.bufByte (s.shrbase.toNat + k * (s.seclen.toNat + 1) + s.seclen.toNat) = xs[k]

/-- SPLIT draws one permutation, then SECLEN x (THRESH - 1) coefficients, byte after byte: with those draws given
to the random source it takes exactly them, the coordinates are `perm[k] + 1`, and byte i's coefficient a_{j+1} is draw
number i x (THRESH - 1) + j (R134, R135; the supplied draws are the model's form, log 4). -/
def Obligations.SplitTakesItsDraws : Prop :=
  ∀ (s t : State) (perm : PermDraw) (perms : List PermDraw) (draws rest : List (Fin 255)),
    s.TablesBuilt → s.SplitAccepted → s.rng.perms = perm :: perms → s.rng.coeffs = draws ++ rest →
    draws.length = s.seclen.toNat * (s.thresh.toNat - 1) → exec .split s = .next t →
    t.rng = { s.rng with perms := perms, coeffs := rest } ∧
    ∀ k < s.parts.toNat,
      (∀ i < s.seclen.toNat,
        t.bufByte (s.shrbase.toNat + k * (s.seclen.toNat + 1) + i) =
          polyValue (s.bufByte (s.secbase.toNat + i) ::
              ((draws.drop (i * (s.thresh.toNat - 1))).take (s.thresh.toNat - 1)).map
                (fun d => BitVec.ofNat 8 (d.val + 1)))
            (t.bufByte (s.shrbase.toNat + k * (s.seclen.toNat + 1) + s.seclen.toNat))) ∧
      ∀ hk : k < perm.entries.length,
        t.bufByte (s.shrbase.toNat + k * (s.seclen.toNat + 1) + s.seclen.toNat) =
          BitVec.ofNat 8 (perm.entries[k].val + 1)

/-- The first constraint of `split` that fails, in the order of rule R132, is the one SPLIT reports, before any draw
or write (R130, R132, R161). -/
def Obligations.SplitValidationOrder : Prop :=
  ∀ s : State,
    (s.thresh.toNat < 2 → exec .split s = .next (s.withError 0x50000000 0x0111)) ∧
    (255 < s.thresh.toNat → exec .split s = .next (s.withError 0x50000000 0x0121)) ∧
    (2 ≤ s.thresh.toNat → s.thresh.toNat ≤ 255 → s.parts.toNat < s.thresh.toNat →
      exec .split s = .next (s.withError 0x50000000 0x0131)) ∧
    (2 ≤ s.thresh.toNat → s.thresh.toNat ≤ 255 → s.thresh.toNat ≤ s.parts.toNat → 255 < s.parts.toNat →
      exec .split s = .next (s.withError 0x50000000 0x0141)) ∧
    (2 ≤ s.thresh.toNat → s.thresh.toNat ≤ s.parts.toNat → s.parts.toNat ≤ 255 → s.seclen.toNat = 0 →
      exec .split s = .next (s.withError 0x50000000 0x0151))

/-- With valid parameters SPLIT raises BAD_ADDRESS where the secret or the shares leave BUF, then OVERLAP where they
meet, before any draw or write (R49, R133). -/
def Obligations.SplitRegionChecks : Prop :=
  ∀ s : State, s.SplitValid →
    (65536 < s.secbase.toNat + s.seclen.toNat ∨
        65536 < s.shrbase.toNat + s.parts.toNat * (s.seclen.toNat + 1) →
      exec .split s = .next (s.withError 0x50000000 0x0144)) ∧
    (s.secbase.toNat + s.seclen.toNat ≤ 65536 →
      s.shrbase.toNat + s.parts.toNat * (s.seclen.toNat + 1) ≤ 65536 →
      ¬ Apart s.secbase.toNat s.seclen.toNat s.shrbase.toNat (s.parts.toNat * (s.seclen.toNat + 1)) →
      exec .split s = .next (s.withError 0x50000000 0x0174))

/-! ### COMBINE -/

/-- COMBINE that passes its checks writes, for each byte place, the value at 0 of every polynomial with at most NSHARES
coefficients through that place's points, to BUF from SECBASE, and SECLEN = share length - 1; it changes no other byte
and nothing else (R140, R141). That the Lagrange formula gives that value is the spec's inference from general
knowledge, which it marks so in rule R121 (G2); the statement rests on it. -/
def Obligations.CombineWritesSecret : Prop :=
  ∀ (s : State) (len : Nat), s.TablesBuilt → s.CombineAccepted len →
    ∃ t, exec .combine s = .next t ∧ t = { s with buf := t.buf, seclen := t.seclen } ∧
      t.seclen.toNat = len - 1 ∧
      (∀ a, a < s.secbase.toNat ∨ s.secbase.toNat + (len - 1) ≤ a → t.bufByte a = s.bufByte a) ∧
      ∀ i < len - 1, ∀ coeffs : List Byte, coeffs.length ≤ s.nshares.toNat →
        (∀ k < s.nshares.toNat, polyValue coeffs (s.shareByte k (len - 1)) = s.shareByte k i) →
        t.bufByte (s.secbase.toNat + i) = polyValue coeffs 0x00

/-- COMBINE's checks in their order, each reported where all before it pass: FEW_SHARES, BAD_ADDRESS for the table,
SHORT_SHARE, LEN_MISMATCH, BAD_ADDRESS and OVERLAP for the regions; nothing is written (R141, R142, R143). -/
def Obligations.CombineCheckOrder : Prop :=
  ∀ (s : State) (len : Nat),
    (s.nshares.toNat < 2 → exec .combine s = .next (s.withError 0x51000000 0x0161)) ∧
    (2 ≤ s.nshares.toNat → 65536 < s.descbase.toNat + 4 * s.nshares.toNat →
      exec .combine s = .next (s.withError 0x51000000 0x0144)) ∧
    (2 ≤ s.nshares.toNat → s.descbase.toNat + 4 * s.nshares.toNat ≤ 65536 → (s.descriptor 0).len < 2 →
      exec .combine s = .next (s.withError 0x51000000 0x0171)) ∧
    (2 ≤ s.nshares.toNat → s.descbase.toNat + 4 * s.nshares.toNat ≤ 65536 → 2 ≤ (s.descriptor 0).len →
      (∃ k < s.nshares.toNat, (s.descriptor k).len ≠ (s.descriptor 0).len) →
      exec .combine s = .next (s.withError 0x51000000 0x0181)) ∧
    (s.CombineValid len →
      ((∃ k < s.nshares.toNat, 65536 < (s.descriptor k).addr + len) ∨ 65536 < s.secbase.toNat + (len - 1)) →
      exec .combine s = .next (s.withError 0x51000000 0x0144)) ∧
    (s.CombineValid len → (∀ k < s.nshares.toNat, (s.descriptor k).addr + len ≤ 65536) →
      s.secbase.toNat + (len - 1) ≤ 65536 →
      ((∃ k < s.nshares.toNat, ¬ Apart s.secbase.toNat (len - 1) (s.descriptor k).addr len) ∨
        ¬ Apart s.secbase.toNat (len - 1) s.descbase.toNat (4 * s.nshares.toNat)) →
      exec .combine s = .next (s.withError 0x51000000 0x0174))

/-- After its other checks COMBINE raises DuplicateShareError where two trailing bytes are equal, whatever the
y-values; nothing is written (R144, R162). -/
def Obligations.CombineDuplicateRaises : Prop :=
  ∀ (s : State) (len : Nat), s.CombineRegions len →
    (∃ j k, j < k ∧ k < s.nshares.toNat ∧ s.shareByte j (len - 1) = s.shareByte k (len - 1)) →
    exec .combine s = .next (s.withError 0x51000000 0x0102)

/-! ### The protocol -/

/-- "Every share returned by `split` has length `len(secret)+1`; the set of trailing x-coordinate bytes across all
returned shares is size `parts` (no duplicates)", and none of them is 0 (R136). -/
def Obligations.ShareShape : Prop :=
  ∀ (T : Tables) (secret : List Byte) (parts threshold : Nat) (r r' : RandomSource) (shares : List Share),
    split T secret parts threshold r = .ok (shares, r') →
    shares.length = parts ∧ (∀ sh ∈ shares, sh.length = secret.length + 1) ∧
    (column shares secret.length).length = parts ∧ (column shares secret.length).Nodup ∧
    0x00 ∉ column shares secret.length

/-- For every secret, every valid (parts, threshold) and every draw, `combine` of at least `threshold` of the shares
of one `split`, in any order, is the secret (R146). For exactly `threshold` shares this is the document's property; for
more it is the spec's inference from general knowledge, which it marks so in rule R146 (G2). -/
def Obligations.CombineOfSplitIsSecret : Prop :=
  ∀ (secret : List Byte) (parts threshold : Nat) (r r' : RandomSource) (shares subset : List Share),
    split standardTables secret parts threshold r = .ok (shares, r') →
    subset.Nodup → (∀ sh ∈ subset, sh ∈ shares) → threshold ≤ subset.length →
    combine standardTables subset = .ok secret

/-- The same on the machine: after SPLIT, COMBINE whose descriptors name at least THRESH different shares of it, left
as SPLIT wrote them, writes the secret back (R131, R141, R146). For more than THRESH shares this is the spec's inference
from general knowledge, which it marks so in rule R146 (G2). -/
def Obligations.SplitThenCombineRestoresSecret : Prop :=
  ∀ (s t u : State) (pick : Nat → Nat), s.TablesBuilt → s.SplitAccepted → exec .split s = .next t →
    u.TablesBuilt → u.CombineRegions (s.seclen.toNat + 1) → s.thresh.toNat ≤ u.nshares.toNat →
    (∀ k < u.nshares.toNat, pick k < s.parts.toNat ∧
      (u.descriptor k).addr = s.shrbase.toNat + pick k * (s.seclen.toNat + 1)) →
    (∀ j < u.nshares.toNat, ∀ k < u.nshares.toNat, pick j = pick k → j = k) →
    (∀ a, s.shrbase.toNat ≤ a → a < s.shrbase.toNat + s.parts.toNat * (s.seclen.toNat + 1) →
      u.bufByte a = t.bufByte a) →
    ∃ v, exec .combine u = .next v ∧ v.seclen = s.seclen ∧
      ∀ i < s.seclen.toNat, v.bufByte (u.secbase.toNat + i) = s.bufByte (s.secbase.toNat + i)

/-- The order of the shares does not change what `combine` returns (R141). -/
def Obligations.CombineIgnoresOrder : Prop :=
  ∀ (shares shares' : List Share) (secret : List Byte), shares.Perm shares' →
    combine standardTables shares = .ok secret → combine standardTables shares' = .ok secret

/-- A share whose trailing byte is 0x00 is accepted, and the secret is then that share's own y-values (R145). -/
def Obligations.ZeroCoordinateShareIsSecret : Prop :=
  ∀ (shares : List Share) (ys secret : List Byte), ys ++ [0x00] ∈ shares →
    combine standardTables shares = .ok secret → secret = ys

/-! ### After reset -/

/-- With the reset values SPLIT raises THRESH_LOW, COMBINE FEW_SHARES, EVAL and INTERP BAD_LENGTH, and MKPOLY with a
nonzero degree writes at address 0x0000 (R192). -/
def Obligations.CommandsRightAfterReset : Prop :=
  exec .split State.reset = .next (State.reset.withError 0x50000000 0x0111) ∧
  exec .combine State.reset = .next (State.reset.withError 0x51000000 0x0161) ∧
  (∀ fd fa, exec (.eval fd fa) State.reset = .next (State.reset.withError (encode (.eval fd fa)) 0x0154)) ∧
  (∀ fd fa, exec (.interp fd fa) State.reset = .next (State.reset.withError (encode (.interp fd fa)) 0x0154)) ∧
  ∀ fa degree, degree ≠ 0 → ∃ t, exec (.mkpoly fa degree) State.reset = .next t ∧ t.bufByte 0x0000 = 0x00 ∧
    t.polylen.toNat = degree.toNat + 1
end

