-- ==== Sys2Proof/Laws/State.lean ====
section
/-! SUPPORT. One lemma per field per update of the state, so that no later proof unfolds a record update. -/

namespace Sys2Proof.Machine

/-! ### setF -/

@[simp] theorem State.setF_tables (s : State) (i : FReg) (v : Byte) : (s.setF i v).tables = s.tables := rfl
@[simp] theorem State.setF_status (s : State) (i : FReg) (v : Byte) : (s.setF i v).status = s.status := rfl
@[simp] theorem State.setF_errcmdl (s : State) (i : FReg) (v : Byte) : (s.setF i v).errcmdl = s.errcmdl := rfl
@[simp] theorem State.setF_errcmdh (s : State) (i : FReg) (v : Byte) : (s.setF i v).errcmdh = s.errcmdh := rfl
@[simp] theorem State.setF_secbase (s : State) (i : FReg) (v : Byte) : (s.setF i v).secbase = s.secbase := rfl
@[simp] theorem State.setF_seclen (s : State) (i : FReg) (v : Byte) : (s.setF i v).seclen = s.seclen := rfl
@[simp] theorem State.setF_parts (s : State) (i : FReg) (v : Byte) : (s.setF i v).parts = s.parts := rfl
@[simp] theorem State.setF_thresh (s : State) (i : FReg) (v : Byte) : (s.setF i v).thresh = s.thresh := rfl
@[simp] theorem State.setF_shrbase (s : State) (i : FReg) (v : Byte) : (s.setF i v).shrbase = s.shrbase := rfl
@[simp] theorem State.setF_descbase (s : State) (i : FReg) (v : Byte) : (s.setF i v).descbase = s.descbase := rfl
@[simp] theorem State.setF_nshares (s : State) (i : FReg) (v : Byte) : (s.setF i v).nshares = s.nshares := rfl
@[simp] theorem State.setF_polybase (s : State) (i : FReg) (v : Byte) : (s.setF i v).polybase = s.polybase := rfl
@[simp] theorem State.setF_polylen (s : State) (i : FReg) (v : Byte) : (s.setF i v).polylen = s.polylen := rfl
@[simp] theorem State.setF_xsbase (s : State) (i : FReg) (v : Byte) : (s.setF i v).xsbase = s.xsbase := rfl
@[simp] theorem State.setF_ysbase (s : State) (i : FReg) (v : Byte) : (s.setF i v).ysbase = s.ysbase := rfl
@[simp] theorem State.setF_nsamp (s : State) (i : FReg) (v : Byte) : (s.setF i v).nsamp = s.nsamp := rfl
@[simp] theorem State.setF_buf (s : State) (i : FReg) (v : Byte) : (s.setF i v).buf = s.buf := rfl
@[simp] theorem State.setF_host (s : State) (i : FReg) (v : Byte) : (s.setF i v).host = s.host := rfl
@[simp] theorem State.setF_reply (s : State) (i : FReg) (v : Byte) : (s.setF i v).reply = s.reply := rfl
@[simp] theorem State.setF_resets (s : State) (i : FReg) (v : Byte) : (s.setF i v).resets = s.resets := rfl
@[simp] theorem State.setF_rng (s : State) (i : FReg) (v : Byte) : (s.setF i v).rng = s.rng := rfl

/-! ### setRng -/

@[simp] theorem State.setRng_tables (s : State) (r : RandomSource) : (s.setRng r).tables = s.tables := rfl
@[simp] theorem State.setRng_f (s : State) (r : RandomSource) : (s.setRng r).f = s.f := rfl
@[simp] theorem State.setRng_status (s : State) (r : RandomSource) : (s.setRng r).status = s.status := rfl
@[simp] theorem State.setRng_errcmdl (s : State) (r : RandomSource) : (s.setRng r).errcmdl = s.errcmdl := rfl
@[simp] theorem State.setRng_errcmdh (s : State) (r : RandomSource) : (s.setRng r).errcmdh = s.errcmdh := rfl
@[simp] theorem State.setRng_secbase (s : State) (r : RandomSource) : (s.setRng r).secbase = s.secbase := rfl
@[simp] theorem State.setRng_seclen (s : State) (r : RandomSource) : (s.setRng r).seclen = s.seclen := rfl
@[simp] theorem State.setRng_parts (s : State) (r : RandomSource) : (s.setRng r).parts = s.parts := rfl
@[simp] theorem State.setRng_thresh (s : State) (r : RandomSource) : (s.setRng r).thresh = s.thresh := rfl
@[simp] theorem State.setRng_shrbase (s : State) (r : RandomSource) : (s.setRng r).shrbase = s.shrbase := rfl
@[simp] theorem State.setRng_descbase (s : State) (r : RandomSource) : (s.setRng r).descbase = s.descbase := rfl
@[simp] theorem State.setRng_nshares (s : State) (r : RandomSource) : (s.setRng r).nshares = s.nshares := rfl
@[simp] theorem State.setRng_polybase (s : State) (r : RandomSource) : (s.setRng r).polybase = s.polybase := rfl
@[simp] theorem State.setRng_polylen (s : State) (r : RandomSource) : (s.setRng r).polylen = s.polylen := rfl
@[simp] theorem State.setRng_xsbase (s : State) (r : RandomSource) : (s.setRng r).xsbase = s.xsbase := rfl
@[simp] theorem State.setRng_ysbase (s : State) (r : RandomSource) : (s.setRng r).ysbase = s.ysbase := rfl
@[simp] theorem State.setRng_nsamp (s : State) (r : RandomSource) : (s.setRng r).nsamp = s.nsamp := rfl
@[simp] theorem State.setRng_buf (s : State) (r : RandomSource) : (s.setRng r).buf = s.buf := rfl
@[simp] theorem State.setRng_host (s : State) (r : RandomSource) : (s.setRng r).host = s.host := rfl
@[simp] theorem State.setRng_reply (s : State) (r : RandomSource) : (s.setRng r).reply = s.reply := rfl
@[simp] theorem State.setRng_resets (s : State) (r : RandomSource) : (s.setRng r).resets = s.resets := rfl

@[simp] theorem State.setRng_rng (s : State) (r : RandomSource) : (s.setRng r).rng = r := rfl

/-! ### setTables -/

@[simp] theorem State.setTables_f (s : State) (T : Tables) : (s.setTables T).f = s.f := rfl
@[simp] theorem State.setTables_status (s : State) (T : Tables) : (s.setTables T).status = s.status := rfl
@[simp] theorem State.setTables_errcmdl (s : State) (T : Tables) : (s.setTables T).errcmdl = s.errcmdl := rfl
@[simp] theorem State.setTables_errcmdh (s : State) (T : Tables) : (s.setTables T).errcmdh = s.errcmdh := rfl
@[simp] theorem State.setTables_secbase (s : State) (T : Tables) : (s.setTables T).secbase = s.secbase := rfl
@[simp] theorem State.setTables_seclen (s : State) (T : Tables) : (s.setTables T).seclen = s.seclen := rfl
@[simp] theorem State.setTables_parts (s : State) (T : Tables) : (s.setTables T).parts = s.parts := rfl
@[simp] theorem State.setTables_thresh (s : State) (T : Tables) : (s.setTables T).thresh = s.thresh := rfl
@[simp] theorem State.setTables_shrbase (s : State) (T : Tables) : (s.setTables T).shrbase = s.shrbase := rfl
@[simp] theorem State.setTables_descbase (s : State) (T : Tables) : (s.setTables T).descbase = s.descbase := rfl
@[simp] theorem State.setTables_nshares (s : State) (T : Tables) : (s.setTables T).nshares = s.nshares := rfl
@[simp] theorem State.setTables_polybase (s : State) (T : Tables) : (s.setTables T).polybase = s.polybase := rfl
@[simp] theorem State.setTables_polylen (s : State) (T : Tables) : (s.setTables T).polylen = s.polylen := rfl
@[simp] theorem State.setTables_xsbase (s : State) (T : Tables) : (s.setTables T).xsbase = s.xsbase := rfl
@[simp] theorem State.setTables_ysbase (s : State) (T : Tables) : (s.setTables T).ysbase = s.ysbase := rfl
@[simp] theorem State.setTables_nsamp (s : State) (T : Tables) : (s.setTables T).nsamp = s.nsamp := rfl
@[simp] theorem State.setTables_buf (s : State) (T : Tables) : (s.setTables T).buf = s.buf := rfl
@[simp] theorem State.setTables_host (s : State) (T : Tables) : (s.setTables T).host = s.host := rfl
@[simp] theorem State.setTables_reply (s : State) (T : Tables) : (s.setTables T).reply = s.reply := rfl
@[simp] theorem State.setTables_resets (s : State) (T : Tables) : (s.setTables T).resets = s.resets := rfl
@[simp] theorem State.setTables_rng (s : State) (T : Tables) : (s.setTables T).rng = s.rng := rfl

@[simp] theorem State.setTables_tables (s : State) (T : Tables) : (s.setTables T).tables = T := rfl

/-! ### writeByte and writeBytes: only BUF changes -/

theorem State.writeByte_eq (s : State) (a : Nat) (v : Byte) :
    s.writeByte a v = { s with buf := (s.writeByte a v).buf } := by
  unfold State.writeByte; split <;> rfl

theorem State.writeBytes_eq (s : State) (a : Nat) (vs : List Byte) :
    s.writeBytes a vs = { s with buf := (s.writeBytes a vs).buf } := by
  induction vs generalizing s a with
  | nil => rfl
  | cons v vs ih => rw [State.writeBytes, ih, State.writeByte_eq]

@[simp] theorem State.writeByte_tables (s : State) (a : Nat) (v : Byte) : (s.writeByte a v).tables = s.tables := by rw [State.writeByte_eq]
@[simp] theorem State.writeByte_f (s : State) (a : Nat) (v : Byte) : (s.writeByte a v).f = s.f := by rw [State.writeByte_eq]
@[simp] theorem State.writeByte_status (s : State) (a : Nat) (v : Byte) : (s.writeByte a v).status = s.status := by rw [State.writeByte_eq]
@[simp] theorem State.writeByte_errcmdl (s : State) (a : Nat) (v : Byte) : (s.writeByte a v).errcmdl = s.errcmdl := by rw [State.writeByte_eq]
@[simp] theorem State.writeByte_errcmdh (s : State) (a : Nat) (v : Byte) : (s.writeByte a v).errcmdh = s.errcmdh := by rw [State.writeByte_eq]
@[simp] theorem State.writeByte_secbase (s : State) (a : Nat) (v : Byte) : (s.writeByte a v).secbase = s.secbase := by rw [State.writeByte_eq]
@[simp] theorem State.writeByte_seclen (s : State) (a : Nat) (v : Byte) : (s.writeByte a v).seclen = s.seclen := by rw [State.writeByte_eq]
@[simp] theorem State.writeByte_parts (s : State) (a : Nat) (v : Byte) : (s.writeByte a v).parts = s.parts := by rw [State.writeByte_eq]
@[simp] theorem State.writeByte_thresh (s : State) (a : Nat) (v : Byte) : (s.writeByte a v).thresh = s.thresh := by rw [State.writeByte_eq]
@[simp] theorem State.writeByte_shrbase (s : State) (a : Nat) (v : Byte) : (s.writeByte a v).shrbase = s.shrbase := by rw [State.writeByte_eq]
@[simp] theorem State.writeByte_descbase (s : State) (a : Nat) (v : Byte) : (s.writeByte a v).descbase = s.descbase := by rw [State.writeByte_eq]
@[simp] theorem State.writeByte_nshares (s : State) (a : Nat) (v : Byte) : (s.writeByte a v).nshares = s.nshares := by rw [State.writeByte_eq]
@[simp] theorem State.writeByte_polybase (s : State) (a : Nat) (v : Byte) : (s.writeByte a v).polybase = s.polybase := by rw [State.writeByte_eq]
@[simp] theorem State.writeByte_polylen (s : State) (a : Nat) (v : Byte) : (s.writeByte a v).polylen = s.polylen := by rw [State.writeByte_eq]
@[simp] theorem State.writeByte_xsbase (s : State) (a : Nat) (v : Byte) : (s.writeByte a v).xsbase = s.xsbase := by rw [State.writeByte_eq]
@[simp] theorem State.writeByte_ysbase (s : State) (a : Nat) (v : Byte) : (s.writeByte a v).ysbase = s.ysbase := by rw [State.writeByte_eq]
@[simp] theorem State.writeByte_nsamp (s : State) (a : Nat) (v : Byte) : (s.writeByte a v).nsamp = s.nsamp := by rw [State.writeByte_eq]
@[simp] theorem State.writeByte_host (s : State) (a : Nat) (v : Byte) : (s.writeByte a v).host = s.host := by rw [State.writeByte_eq]
@[simp] theorem State.writeByte_reply (s : State) (a : Nat) (v : Byte) : (s.writeByte a v).reply = s.reply := by rw [State.writeByte_eq]
@[simp] theorem State.writeByte_resets (s : State) (a : Nat) (v : Byte) : (s.writeByte a v).resets = s.resets := by rw [State.writeByte_eq]
@[simp] theorem State.writeByte_rng (s : State) (a : Nat) (v : Byte) : (s.writeByte a v).rng = s.rng := by rw [State.writeByte_eq]

@[simp] theorem State.writeBytes_tables (s : State) (a : Nat) (vs : List Byte) : (s.writeBytes a vs).tables = s.tables := by rw [State.writeBytes_eq]
@[simp] theorem State.writeBytes_f (s : State) (a : Nat) (vs : List Byte) : (s.writeBytes a vs).f = s.f := by rw [State.writeBytes_eq]
@[simp] theorem State.writeBytes_status (s : State) (a : Nat) (vs : List Byte) : (s.writeBytes a vs).status = s.status := by rw [State.writeBytes_eq]
@[simp] theorem State.writeBytes_errcmdl (s : State) (a : Nat) (vs : List Byte) : (s.writeBytes a vs).errcmdl = s.errcmdl := by rw [State.writeBytes_eq]
@[simp] theorem State.writeBytes_errcmdh (s : State) (a : Nat) (vs : List Byte) : (s.writeBytes a vs).errcmdh = s.errcmdh := by rw [State.writeBytes_eq]
@[simp] theorem State.writeBytes_secbase (s : State) (a : Nat) (vs : List Byte) : (s.writeBytes a vs).secbase = s.secbase := by rw [State.writeBytes_eq]
@[simp] theorem State.writeBytes_seclen (s : State) (a : Nat) (vs : List Byte) : (s.writeBytes a vs).seclen = s.seclen := by rw [State.writeBytes_eq]
@[simp] theorem State.writeBytes_parts (s : State) (a : Nat) (vs : List Byte) : (s.writeBytes a vs).parts = s.parts := by rw [State.writeBytes_eq]
@[simp] theorem State.writeBytes_thresh (s : State) (a : Nat) (vs : List Byte) : (s.writeBytes a vs).thresh = s.thresh := by rw [State.writeBytes_eq]
@[simp] theorem State.writeBytes_shrbase (s : State) (a : Nat) (vs : List Byte) : (s.writeBytes a vs).shrbase = s.shrbase := by rw [State.writeBytes_eq]
@[simp] theorem State.writeBytes_descbase (s : State) (a : Nat) (vs : List Byte) : (s.writeBytes a vs).descbase = s.descbase := by rw [State.writeBytes_eq]
@[simp] theorem State.writeBytes_nshares (s : State) (a : Nat) (vs : List Byte) : (s.writeBytes a vs).nshares = s.nshares := by rw [State.writeBytes_eq]
@[simp] theorem State.writeBytes_polybase (s : State) (a : Nat) (vs : List Byte) : (s.writeBytes a vs).polybase = s.polybase := by rw [State.writeBytes_eq]
@[simp] theorem State.writeBytes_polylen (s : State) (a : Nat) (vs : List Byte) : (s.writeBytes a vs).polylen = s.polylen := by rw [State.writeBytes_eq]
@[simp] theorem State.writeBytes_xsbase (s : State) (a : Nat) (vs : List Byte) : (s.writeBytes a vs).xsbase = s.xsbase := by rw [State.writeBytes_eq]
@[simp] theorem State.writeBytes_ysbase (s : State) (a : Nat) (vs : List Byte) : (s.writeBytes a vs).ysbase = s.ysbase := by rw [State.writeBytes_eq]
@[simp] theorem State.writeBytes_nsamp (s : State) (a : Nat) (vs : List Byte) : (s.writeBytes a vs).nsamp = s.nsamp := by rw [State.writeBytes_eq]
@[simp] theorem State.writeBytes_host (s : State) (a : Nat) (vs : List Byte) : (s.writeBytes a vs).host = s.host := by rw [State.writeBytes_eq]
@[simp] theorem State.writeBytes_reply (s : State) (a : Nat) (vs : List Byte) : (s.writeBytes a vs).reply = s.reply := by rw [State.writeBytes_eq]
@[simp] theorem State.writeBytes_resets (s : State) (a : Nat) (vs : List Byte) : (s.writeBytes a vs).resets = s.resets := by rw [State.writeBytes_eq]
@[simp] theorem State.writeBytes_rng (s : State) (a : Nat) (vs : List Byte) : (s.writeBytes a vs).rng = s.rng := by rw [State.writeBytes_eq]

/-! ### writeCR: only operand registers change -/

@[simp] theorem State.writeCR_tables (s : State) (n : CReg) (v : Word) : (s.writeCR n v).tables = s.tables := by cases n <;> rfl
@[simp] theorem State.writeCR_f (s : State) (n : CReg) (v : Word) : (s.writeCR n v).f = s.f := by cases n <;> rfl
@[simp] theorem State.writeCR_status (s : State) (n : CReg) (v : Word) : (s.writeCR n v).status = s.status := by cases n <;> rfl
@[simp] theorem State.writeCR_errcmdl (s : State) (n : CReg) (v : Word) : (s.writeCR n v).errcmdl = s.errcmdl := by cases n <;> rfl
@[simp] theorem State.writeCR_errcmdh (s : State) (n : CReg) (v : Word) : (s.writeCR n v).errcmdh = s.errcmdh := by cases n <;> rfl
@[simp] theorem State.writeCR_buf (s : State) (n : CReg) (v : Word) : (s.writeCR n v).buf = s.buf := by cases n <;> rfl
@[simp] theorem State.writeCR_host (s : State) (n : CReg) (v : Word) : (s.writeCR n v).host = s.host := by cases n <;> rfl
@[simp] theorem State.writeCR_reply (s : State) (n : CReg) (v : Word) : (s.writeCR n v).reply = s.reply := by cases n <;> rfl
@[simp] theorem State.writeCR_resets (s : State) (n : CReg) (v : Word) : (s.writeCR n v).resets = s.resets := by cases n <;> rfl
@[simp] theorem State.writeCR_rng (s : State) (n : CReg) (v : Word) : (s.writeCR n v).rng = s.rng := by cases n <;> rfl

/-! ### raise -/

@[simp] theorem State.raise_tables (s : State) (w : Command) (c : Cause) : (s.raise w c).tables = s.tables := rfl
@[simp] theorem State.raise_f (s : State) (w : Command) (c : Cause) : (s.raise w c).f = s.f := rfl
@[simp] theorem State.raise_secbase (s : State) (w : Command) (c : Cause) : (s.raise w c).secbase = s.secbase := rfl
@[simp] theorem State.raise_seclen (s : State) (w : Command) (c : Cause) : (s.raise w c).seclen = s.seclen := rfl
@[simp] theorem State.raise_parts (s : State) (w : Command) (c : Cause) : (s.raise w c).parts = s.parts := rfl
@[simp] theorem State.raise_thresh (s : State) (w : Command) (c : Cause) : (s.raise w c).thresh = s.thresh := rfl
@[simp] theorem State.raise_shrbase (s : State) (w : Command) (c : Cause) : (s.raise w c).shrbase = s.shrbase := rfl
@[simp] theorem State.raise_descbase (s : State) (w : Command) (c : Cause) : (s.raise w c).descbase = s.descbase := rfl
@[simp] theorem State.raise_nshares (s : State) (w : Command) (c : Cause) : (s.raise w c).nshares = s.nshares := rfl
@[simp] theorem State.raise_polybase (s : State) (w : Command) (c : Cause) : (s.raise w c).polybase = s.polybase := rfl
@[simp] theorem State.raise_polylen (s : State) (w : Command) (c : Cause) : (s.raise w c).polylen = s.polylen := rfl
@[simp] theorem State.raise_xsbase (s : State) (w : Command) (c : Cause) : (s.raise w c).xsbase = s.xsbase := rfl
@[simp] theorem State.raise_ysbase (s : State) (w : Command) (c : Cause) : (s.raise w c).ysbase = s.ysbase := rfl
@[simp] theorem State.raise_nsamp (s : State) (w : Command) (c : Cause) : (s.raise w c).nsamp = s.nsamp := rfl
@[simp] theorem State.raise_buf (s : State) (w : Command) (c : Cause) : (s.raise w c).buf = s.buf := rfl
@[simp] theorem State.raise_host (s : State) (w : Command) (c : Cause) : (s.raise w c).host = s.host := rfl
@[simp] theorem State.raise_reply (s : State) (w : Command) (c : Cause) : (s.raise w c).reply = s.reply := rfl
@[simp] theorem State.raise_resets (s : State) (w : Command) (c : Cause) : (s.raise w c).resets = s.resets := rfl
@[simp] theorem State.raise_rng (s : State) (w : Command) (c : Cause) : (s.raise w c).rng = s.rng := rfl

@[simp] theorem State.raise_status (s : State) (w : Command) (c : Cause) : (s.raise w c).status = c.status := rfl
@[simp] theorem State.raise_errcmdl (s : State) (w : Command) (c : Cause) : (s.raise w c).errcmdl = w.extractLsb' 0 16 := rfl
@[simp] theorem State.raise_errcmdh (s : State) (w : Command) (c : Cause) : (s.raise w c).errcmdh = w.extractLsb' 16 16 := rfl

/-! ### acknowledge: only STATUS and ERRCMD change -/

@[simp] theorem State.acknowledge_tables (s : State) : s.acknowledge.tables = s.tables := by unfold State.acknowledge; split <;> rfl
@[simp] theorem State.acknowledge_f (s : State) : s.acknowledge.f = s.f := by unfold State.acknowledge; split <;> rfl
@[simp] theorem State.acknowledge_secbase (s : State) : s.acknowledge.secbase = s.secbase := by unfold State.acknowledge; split <;> rfl
@[simp] theorem State.acknowledge_seclen (s : State) : s.acknowledge.seclen = s.seclen := by unfold State.acknowledge; split <;> rfl
@[simp] theorem State.acknowledge_parts (s : State) : s.acknowledge.parts = s.parts := by unfold State.acknowledge; split <;> rfl
@[simp] theorem State.acknowledge_thresh (s : State) : s.acknowledge.thresh = s.thresh := by unfold State.acknowledge; split <;> rfl
@[simp] theorem State.acknowledge_shrbase (s : State) : s.acknowledge.shrbase = s.shrbase := by unfold State.acknowledge; split <;> rfl
@[simp] theorem State.acknowledge_descbase (s : State) : s.acknowledge.descbase = s.descbase := by unfold State.acknowledge; split <;> rfl
@[simp] theorem State.acknowledge_nshares (s : State) : s.acknowledge.nshares = s.nshares := by unfold State.acknowledge; split <;> rfl
@[simp] theorem State.acknowledge_polybase (s : State) : s.acknowledge.polybase = s.polybase := by unfold State.acknowledge; split <;> rfl
@[simp] theorem State.acknowledge_polylen (s : State) : s.acknowledge.polylen = s.polylen := by unfold State.acknowledge; split <;> rfl
@[simp] theorem State.acknowledge_xsbase (s : State) : s.acknowledge.xsbase = s.xsbase := by unfold State.acknowledge; split <;> rfl
@[simp] theorem State.acknowledge_ysbase (s : State) : s.acknowledge.ysbase = s.ysbase := by unfold State.acknowledge; split <;> rfl
@[simp] theorem State.acknowledge_nsamp (s : State) : s.acknowledge.nsamp = s.nsamp := by unfold State.acknowledge; split <;> rfl
@[simp] theorem State.acknowledge_buf (s : State) : s.acknowledge.buf = s.buf := by unfold State.acknowledge; split <;> rfl
@[simp] theorem State.acknowledge_host (s : State) : s.acknowledge.host = s.host := by unfold State.acknowledge; split <;> rfl
@[simp] theorem State.acknowledge_reply (s : State) : s.acknowledge.reply = s.reply := by unfold State.acknowledge; split <;> rfl
@[simp] theorem State.acknowledge_resets (s : State) : s.acknowledge.resets = s.resets := by unfold State.acknowledge; split <;> rfl
@[simp] theorem State.acknowledge_rng (s : State) : s.acknowledge.rng = s.rng := by unfold State.acknowledge; split <;> rfl

/-! ### answer -/

@[simp] theorem State.answer_tables (s : State) (r : Reply) : (s.answer r).tables = s.tables := rfl
@[simp] theorem State.answer_f (s : State) (r : Reply) : (s.answer r).f = s.f := rfl
@[simp] theorem State.answer_status (s : State) (r : Reply) : (s.answer r).status = s.status := rfl
@[simp] theorem State.answer_errcmdl (s : State) (r : Reply) : (s.answer r).errcmdl = s.errcmdl := rfl
@[simp] theorem State.answer_errcmdh (s : State) (r : Reply) : (s.answer r).errcmdh = s.errcmdh := rfl
@[simp] theorem State.answer_secbase (s : State) (r : Reply) : (s.answer r).secbase = s.secbase := rfl
@[simp] theorem State.answer_seclen (s : State) (r : Reply) : (s.answer r).seclen = s.seclen := rfl
@[simp] theorem State.answer_parts (s : State) (r : Reply) : (s.answer r).parts = s.parts := rfl
@[simp] theorem State.answer_thresh (s : State) (r : Reply) : (s.answer r).thresh = s.thresh := rfl
@[simp] theorem State.answer_shrbase (s : State) (r : Reply) : (s.answer r).shrbase = s.shrbase := rfl
@[simp] theorem State.answer_descbase (s : State) (r : Reply) : (s.answer r).descbase = s.descbase := rfl
@[simp] theorem State.answer_nshares (s : State) (r : Reply) : (s.answer r).nshares = s.nshares := rfl
@[simp] theorem State.answer_polybase (s : State) (r : Reply) : (s.answer r).polybase = s.polybase := rfl
@[simp] theorem State.answer_polylen (s : State) (r : Reply) : (s.answer r).polylen = s.polylen := rfl
@[simp] theorem State.answer_xsbase (s : State) (r : Reply) : (s.answer r).xsbase = s.xsbase := rfl
@[simp] theorem State.answer_ysbase (s : State) (r : Reply) : (s.answer r).ysbase = s.ysbase := rfl
@[simp] theorem State.answer_nsamp (s : State) (r : Reply) : (s.answer r).nsamp = s.nsamp := rfl
@[simp] theorem State.answer_buf (s : State) (r : Reply) : (s.answer r).buf = s.buf := rfl
@[simp] theorem State.answer_host (s : State) (r : Reply) : (s.answer r).host = s.host := rfl
@[simp] theorem State.answer_resets (s : State) (r : Reply) : (s.answer r).resets = s.resets := rfl
@[simp] theorem State.answer_rng (s : State) (r : Reply) : (s.answer r).rng = s.rng := rfl

@[simp] theorem State.answer_reply (s : State) (r : Reply) : (s.answer r).reply = some r := rfl

/-! ### resetUnit -/

@[simp] theorem State.resetUnit_tables (s : State) : s.resetUnit.tables = State.reset.tables := rfl
@[simp] theorem State.resetUnit_f (s : State) : s.resetUnit.f = State.reset.f := rfl
@[simp] theorem State.resetUnit_status (s : State) : s.resetUnit.status = State.reset.status := rfl
@[simp] theorem State.resetUnit_errcmdl (s : State) : s.resetUnit.errcmdl = State.reset.errcmdl := rfl
@[simp] theorem State.resetUnit_errcmdh (s : State) : s.resetUnit.errcmdh = State.reset.errcmdh := rfl
@[simp] theorem State.resetUnit_secbase (s : State) : s.resetUnit.secbase = State.reset.secbase := rfl
@[simp] theorem State.resetUnit_seclen (s : State) : s.resetUnit.seclen = State.reset.seclen := rfl
@[simp] theorem State.resetUnit_parts (s : State) : s.resetUnit.parts = State.reset.parts := rfl
@[simp] theorem State.resetUnit_thresh (s : State) : s.resetUnit.thresh = State.reset.thresh := rfl
@[simp] theorem State.resetUnit_shrbase (s : State) : s.resetUnit.shrbase = State.reset.shrbase := rfl
@[simp] theorem State.resetUnit_descbase (s : State) : s.resetUnit.descbase = State.reset.descbase := rfl
@[simp] theorem State.resetUnit_nshares (s : State) : s.resetUnit.nshares = State.reset.nshares := rfl
@[simp] theorem State.resetUnit_polybase (s : State) : s.resetUnit.polybase = State.reset.polybase := rfl
@[simp] theorem State.resetUnit_polylen (s : State) : s.resetUnit.polylen = State.reset.polylen := rfl
@[simp] theorem State.resetUnit_xsbase (s : State) : s.resetUnit.xsbase = State.reset.xsbase := rfl
@[simp] theorem State.resetUnit_ysbase (s : State) : s.resetUnit.ysbase = State.reset.ysbase := rfl
@[simp] theorem State.resetUnit_nsamp (s : State) : s.resetUnit.nsamp = State.reset.nsamp := rfl
@[simp] theorem State.resetUnit_buf (s : State) : s.resetUnit.buf = State.reset.buf := rfl
@[simp] theorem State.resetUnit_host (s : State) : s.resetUnit.host = s.host := rfl
@[simp] theorem State.resetUnit_reply (s : State) : s.resetUnit.reply = s.reply := rfl
@[simp] theorem State.resetUnit_resets (s : State) : s.resetUnit.resets = s.resets + 1 := rfl
@[simp] theorem State.resetUnit_rng (s : State) : s.resetUnit.rng = s.rng := rfl

end Sys2Proof.Machine
end

