-- ==== Sys2Proof/Laws/Command.lean ====
section
/-! SUPPORT. What a command, a host action and a step can do: the inversion lemmas that later proofs cite. -/

namespace Sys2Proof.Machine

/-- A command always answers a next state: its effect, or its own error and nothing else (R167). -/
theorem runCommand_next {i : Instr} {s t : State} {effect : Except Cause State}
    (h : runCommand i s effect = .next t) : effect = .ok t ∨ ∃ c, effect = .error c ∧ t = s.raise (encode i) c := by
  unfold runCommand at h
  split at h
  · cases h; exact .inl rfl
  · rename_i c; cases h; exact .inr ⟨c, rfl, rfl⟩

@[simp] theorem runCommand_ok (i : Instr) (s t : State) : runCommand i s (.ok t) = .next t := rfl

@[simp] theorem runCommand_error (i : Instr) (s : State) (c : Cause) :
    runCommand i s (.error c) = .next (s.raise (encode i) c) := rfl

/-- A step with no host action to come changes nothing (R180). -/
theorem step_idle {s : State} (h : s.host = []) : step s = .next s := by
  simp [step, takeAction, h]

/-- A step carries out the oldest host action. -/
theorem step_action {s : State} {act : HostAction} {rest : List HostAction} (h : s.host = act :: rest) :
    step s = hostAction act { s with host := rest } := by
  simp [step, takeAction, h]

end Sys2Proof.Machine
end

