-- ==== Sys2Proof/Laws/Draws.lean ====
section
/-! SUPPORT. The draws: their range (R176) and what a number of them takes from the source (R110, R135). -/

namespace Sys2Proof.Machine

/-- A draw RandCoeff and a coordinate are never 0x00 (R134, R176). -/
theorem nonzeroByte_ne_zero (v : Fin 255) : nonzeroByte v ≠ 0 := by
  intro h
  have := congrArg BitVec.toNat h
  have hv := v.isLt
  simp [nonzeroByte, Nat.mod_eq_of_lt (show v.val + 1 < 256 by omega)] at this

theorem nonzeroByte_injective : Function.Injective nonzeroByte := by
  intro v w h
  have := congrArg BitVec.toNat h
  have hv := v.isLt
  have hw := w.isLt
  simp [nonzeroByte, Nat.mod_eq_of_lt (show v.val + 1 < 256 by omega),
    Nat.mod_eq_of_lt (show w.val + 1 < 256 by omega)] at this
  exact Fin.ext this

theorem RandomSource.randCoeff_ne_zero (r : RandomSource) : r.randCoeff.1 ≠ 0 := by
  unfold RandomSource.randCoeff
  split <;> exact nonzeroByte_ne_zero _

@[simp] theorem RandomSource.randCoeff_perms (r : RandomSource) : r.randCoeff.2.perms = r.perms := by
  unfold RandomSource.randCoeff
  split <;> rfl

@[simp] theorem RandomSource.length_randCoeffs (r : RandomSource) (n : Nat) : (r.randCoeffs n).1.length = n := by
  induction n generalizing r with
  | zero => rfl
  | succ n ih => simp [RandomSource.randCoeffs, ih]

theorem RandomSource.randCoeffs_ne_zero (r : RandomSource) (n : Nat) : ∀ c ∈ (r.randCoeffs n).1, c ≠ 0 := by
  induction n generalizing r with
  | zero => simp [RandomSource.randCoeffs]
  | succ n ih =>
    intro c hc
    simp only [RandomSource.randCoeffs, List.mem_cons] at hc
    rcases hc with rfl | hc
    · exact r.randCoeff_ne_zero
    · exact ih _ c hc

/-- With enough draws supplied, those are the draws, in order. -/
theorem RandomSource.randCoeffs_supplied (r : RandomSource) (ds rest : List (Fin 255))
    (h : r.coeffs = ds ++ rest) :
    r.randCoeffs ds.length = (ds.map nonzeroByte, { r with coeffs := rest }) := by
  induction ds generalizing r with
  | nil => cases r; simp_all [RandomSource.randCoeffs]
  | cons d ds ih =>
    have hf : r.randCoeff = (nonzeroByte d, { r with coeffs := ds ++ rest }) := by
      simp [RandomSource.randCoeff, h]
    simp only [List.length_cons, RandomSource.randCoeffs, hf, List.map_cons]
    rw [ih { r with coeffs := ds ++ rest } rfl]

end Sys2Proof.Machine
end

