-- ==== Sys2Proof/Laws/Memory.lean ====
section
/-! SUPPORT. BUF: a read after a write, the frame of a write, and that every memory operation keeps the canonical
form (R42, R46). -/

namespace Sys2Proof.Machine

/-! ### The stored bytes -/

theorem Memory.find_insert_same (m : Memory) (a : Nat) (v : Byte) :
    Memory.find (Memory.insert m a v) a = some v := by
  induction m with
  | nil => simp [Memory.insert, Memory.find]
  | cons c m ih =>
    obtain ⟨b, w⟩ := c
    simp only [Memory.insert]
    split
    · simp [Memory.find]
    · split
      · simp [Memory.find]
      · rename_i hne; simp [Memory.find, hne, ih]

theorem Memory.find_insert_other (m : Memory) {a b : Nat} (v : Byte) (h : b ≠ a) :
    Memory.find (Memory.insert m a v) b = Memory.find m b := by
  induction m with
  | nil => simp [Memory.insert, Memory.find, h]
  | cons c m ih =>
    obtain ⟨d, w⟩ := c
    simp only [Memory.insert]
    split
    · simp [Memory.find, h]
    · split
      · rename_i hne; subst hne; simp [Memory.find, h]
      · simp only [Memory.find, ih]

theorem Memory.mem_insert {m : Memory} {a : Nat} {v : Byte} {c : Host.Cell} (h : c ∈ Memory.insert m a v) :
    c = (a, v) ∨ c ∈ m := by
  induction m with
  | nil => simpa [Memory.insert] using h
  | cons d m ih =>
    obtain ⟨b, w⟩ := d
    simp only [Memory.insert] at h
    split at h
    · simpa using h
    · split at h
      · rcases List.mem_cons.mp h with h | h
        · exact .inl h
        · exact .inr (List.mem_cons_of_mem _ h)
      · rcases List.mem_cons.mp h with h | h
        · exact .inr (by simp [h])
        · exact (ih h).imp_right (List.mem_cons_of_mem _)

/-- Storing a byte inside BUF keeps the canonical form. -/
theorem Memory.insert_wf {m : Memory} {a : Nat} (v : Byte) (hm : Memory.wf m) (ha : a < Config.bufSize) :
    Memory.wf (Memory.insert m a v) := by
  refine ⟨?_, fun c hc => ?_⟩
  · have hp := hm.1
    clear hm
    induction m with
    | nil => simp [Memory.insert]
    | cons d m ih =>
      obtain ⟨b, w⟩ := d
      obtain ⟨hb, hm⟩ := List.pairwise_cons.mp hp
      simp only [Memory.insert]
      split
      · rename_i hlt
        refine List.pairwise_cons.mpr ⟨fun c hc => ?_, List.pairwise_cons.mpr ⟨hb, hm⟩⟩
        rcases List.mem_cons.mp hc with rfl | hc
        · exact hlt
        · exact lt_trans hlt (hb c hc)
      · split
        · rename_i heq; subst heq; exact List.pairwise_cons.mpr ⟨hb, hm⟩
        · refine List.pairwise_cons.mpr ⟨fun c hc => ?_, ih hm⟩
          rcases Memory.mem_insert hc with rfl | hc
          · show b < a; omega
          · exact hb c hc
  · rcases Memory.mem_insert hc with rfl | hc
    · exact ha
    · exact hm.2 c hc

/-! ### One byte -/

theorem State.bufByte_congr {s t : State} (hb : t.buf = s.buf) (hr : t.resets = s.resets) (a : Nat) :
    t.bufByte a = s.bufByte a := by
  simp [State.bufByte, hb, hr]

theorem State.writeByte_wf {s : State} (a : Nat) (v : Byte) (h : Memory.wf s.buf) :
    Memory.wf (s.writeByte a v).buf := by
  unfold State.writeByte
  split
  · rename_i ha; exact Memory.insert_wf v h ha
  · exact h

theorem State.bufByte_writeByte_same (s : State) {a : Nat} (v : Byte) (ha : a < Config.bufSize) :
    (s.writeByte a v).bufByte a = v := by
  simp [State.writeByte, ha, State.bufByte, Memory.find_insert_same]

theorem State.bufByte_writeByte_other (s : State) {a b : Nat} (v : Byte) (h : b ≠ a) :
    (s.writeByte a v).bufByte b = s.bufByte b := by
  unfold State.writeByte
  split
  · simp [State.bufByte, Memory.find_insert_other _ _ h]
  · rfl

/-! ### Sequences -/

theorem State.writeBytes_wf {s : State} (a : Nat) (vs : List Byte) (h : Memory.wf s.buf) :
    Memory.wf (s.writeBytes a vs).buf := by
  induction vs generalizing s a with
  | nil => exact h
  | cons v vs ih => exact ih (a + 1) (State.writeByte_wf a v h)

/-- A sequence of writes leaves every byte outside its region alone. -/
theorem State.bufByte_writeBytes_outside (s : State) {a b : Nat} (vs : List Byte)
    (h : b < a ∨ a + vs.length ≤ b) : (s.writeBytes a vs).bufByte b = s.bufByte b := by
  induction vs generalizing s a with
  | nil => rfl
  | cons v vs ih =>
    simp only [List.length_cons] at h
    rw [State.writeBytes, ih _ (by omega), State.bufByte_writeByte_other _ _ (by omega)]

/-- Element `k` of a sequence written at `a` is read back at `a + k` (R40). -/
theorem State.bufByte_writeBytes_inside (s : State) {a : Nat} (vs : List Byte) (k : Nat) (hk : k < vs.length)
    (hr : a + vs.length ≤ Config.bufSize) : (s.writeBytes a vs).bufByte (a + k) = vs[k] := by
  induction vs generalizing s a k with
  | nil => simp at hk
  | cons v vs ih =>
    simp only [List.length_cons] at hk hr
    rw [State.writeBytes]
    cases k with
    | zero =>
      rw [State.bufByte_writeBytes_outside _ _ (by omega)]
      exact State.bufByte_writeByte_same s v (by omega)
    | succ k =>
      have := ih (s.writeByte a v) (a := a + 1) k (by omega) (by omega)
      rw [show a + (k + 1) = a + 1 + k by omega, this]
      simp

@[simp] theorem State.length_readBytes (s : State) (base n : Nat) : (s.readBytes base n).length = n := by
  simp [State.readBytes]

theorem State.getElem_readBytes (s : State) (base n k : Nat) (hk : k < (s.readBytes base n).length) :
    (s.readBytes base n)[k] = s.bufByte (base + k) := by
  simp [State.readBytes]

/-- What a sequence of writes leaves is what reading the region gives. -/
theorem State.readBytes_writeBytes (s : State) {a : Nat} (vs : List Byte)
    (hr : a + vs.length ≤ Config.bufSize) : (s.writeBytes a vs).readBytes a vs.length = vs := by
  apply List.ext_getElem (by simp)
  intro k h1 h2
  rw [State.getElem_readBytes, State.bufByte_writeBytes_inside s vs k h2 hr]

end Sys2Proof.Machine
end

