-- ==== Sys2Proof/Laws/Registers.lean ====
section
/-! SUPPORT. F and the control registers: a read after a write, and the frame of a write (R15, R17). -/

namespace Sys2Proof.Machine

@[simp] theorem State.getF_setF_same (s : State) (i : FReg) (v : Byte) : (s.setF i v).getF i = v := by
  simp [State.setF, State.getF]

theorem State.getF_setF_other (s : State) {i j : FReg} (v : Byte) (h : j ≠ i) :
    (s.setF i v).getF j = s.getF j := by
  have : i.val ≠ j.val := fun e => h (Fin.ext e.symm)
  simp [State.setF, State.getF, this]

theorem State.setF_eq (s : State) (i : FReg) (v : Byte) : s.setF i v = { s with f := (s.setF i v).f } := rfl

@[simp] theorem CReg.ofNum_num (n : CReg) : CReg.ofNum n.num = n := by cases n <;> rfl

@[simp] theorem CReg.num_ofNum (k : Fin 16) : (CReg.ofNum k).num = k := by revert k; decide

/-- CAP reads 0x0001 in every state (R20). -/
@[simp] theorem State.readCR_cap (s : State) : s.readCR .cap = 0x0001 := rfl

theorem State.readCR_writeCR_same (s : State) {n : CReg} (v : Word) (h : n.writable = true) :
    (s.writeCR n v).readCR n = v := by
  cases n <;> first | rfl | (exact absurd h (by decide))

theorem State.readCR_writeCR_other (s : State) {n m : CReg} (v : Word) (h : m ≠ n) :
    (s.writeCR n v).readCR m = s.readCR m := by
  cases n <;> cases m <;> first | rfl | (exact absurd rfl h)

end Sys2Proof.Machine
end

