-- ==== Sys2Proof/Laws/Tables.lean ====
section
/-! SUPPORT. The field tables: the construction of rule R80 gives the tables of rules R82 and R83, and what an entry
of them is. -/

namespace Sys2Proof.Machine

/-! ### The construction, step by step -/

/-- The record that one step of the construction makes of a power and its index (R80). -/
def Tables.record (T : Tables) (p : Byte × Nat) : Tables := (T.setExp p.2 p.1).setLog p.1 p.2

/-- Along a list of successive powers the construction records each power with its index. -/
theorem buildStep_foldl (vs : List Byte) (i : Nat) (T : Tables) (v : Byte)
    (h : ∀ k (hk : k < vs.length), vs[k] = mul3^[k] v) :
    ((List.range' i vs.length).foldl buildStep (T, v)).1 = (vs.zipIdx i).foldl Tables.record T := by
  induction vs generalizing i T v with
  | nil => rfl
  | cons w vs ih =>
    obtain rfl : w = v := h 0 (by simp)
    simp only [List.length_cons, List.range'_succ, List.foldl_cons, List.zipIdx_cons]
    exact ih _ _ _ fun k hk => h (k + 1) (by simpa using hk)

theorem record_foldl_exp (vs : List Byte) (i : Nat) (T : Tables) (j : Nat) (hj : j < 255)
    (hi : i + vs.length ≤ 255) :
    ((vs.zipIdx i).foldl Tables.record T).exp[j] =
      if h : i ≤ j ∧ j < i + vs.length then vs[j - i] else T.exp[j] := by
  induction vs generalizing i T with
  | nil => simp
  | cons w vs ih =>
    simp only [List.length_cons] at hi
    rw [List.zipIdx_cons, List.foldl_cons, ih _ _ (by omega)]
    by_cases h1 : i + 1 ≤ j ∧ j < i + 1 + vs.length
    · have h2 : i ≤ j ∧ j < i + (vs.length + 1) := by omega
      simp only [h1, List.length_cons, h2, and_self, dite_true]
      rw [List.getElem_cons, dif_neg (by omega)]
      congr 1
    · rw [dif_neg h1]
      simp only [Tables.record, Tables.setExp, Tables.setLog, List.length_cons]
      rw [Vector.getElem_setIfInBounds]
      by_cases h3 : i = j
      · subst h3; simp
      · rw [dif_neg (by omega)]; simp [h3]

theorem record_foldl_log (vs : List Byte) (i : Nat) (T : Tables) (j : Nat) (hj : j < 255)
    (hd : vs.Nodup) (h0 : (0 : Byte) ∉ vs) (k : Nat) (hk : k < vs.length) (hkj : vs[k].toNat = j + 1) :
    ((vs.zipIdx i).foldl Tables.record T).log[j] = BitVec.ofNat 8 (i + k) := by
  have other : ∀ (vs : List Byte) (i : Nat) (T : Tables), (∀ v ∈ vs, v.toNat ≠ j + 1 ∧ v ≠ 0) →
      ((vs.zipIdx i).foldl Tables.record T).log[j] = T.log[j] := by
    intro vs
    induction vs with
    | nil => intros; rfl
    | cons w vs ih =>
      intro i T h
      rw [List.zipIdx_cons, List.foldl_cons, ih _ _ fun v hv => h v (by simp [hv])]
      have hw := h w (by simp)
      have : w.toNat ≠ 0 := fun e => hw.2 (BitVec.eq_of_toNat_eq (by simpa using e))
      simp only [Tables.record, Tables.setLog, Tables.setExp]
      rw [Vector.getElem_setIfInBounds, if_neg (by omega)]
  induction vs generalizing i T k with
  | nil => simp at hk
  | cons w vs ih =>
    obtain ⟨hw, hd⟩ := List.nodup_cons.mp hd
    rw [List.zipIdx_cons, List.foldl_cons]
    cases k with
    | zero =>
      simp only [List.getElem_cons_zero] at hkj
      rw [other]
      · simp only [Tables.record, Tables.setLog, Tables.setExp]
        rw [Vector.getElem_setIfInBounds, if_pos (by omega), Nat.add_zero]
      · intro v hv
        refine ⟨fun e => hw ?_, fun e => h0 (by simp [← e, hv])⟩
        rw [show w = v from BitVec.eq_of_toNat_eq (by omega)]; exact hv
    | succ k =>
      rw [ih (i + 1) _ hd (by simp_all) k (by simpa using hk) (by simpa using hkj)]
      congr 1; omega

/-! ### The listed values -/

theorem length_expList : expList.length = 255 := by decide +kernel

theorem length_logList : logList.length = 255 := by decide +kernel

/-- Each listed power is the one before it times x + 1 (R80, R82). -/
theorem expList_isChain : expList.IsChain (fun a b => mul3 a = b) := by decide +kernel

/-- Each listed power is nonzero, and the logarithm listed for it is its index (R82, R83). -/
theorem logList_expList : expList.zipIdx.all
    (fun p => p.1 != 0 && logList[p.1.toNat - 1]? == some (BitVec.ofNat 8 p.2)) = true := by decide +kernel

theorem expList_first : expList[0]? = some 1 := by decide +kernel

theorem expList_last : expList[254]? = some 0xF6 := by decide +kernel

theorem expList_eq_iterate (k : Nat) (hk : k < expList.length) : expList[k] = mul3^[k] 1 := by
  induction k with
  | zero => exact Option.some.inj ((List.getElem?_eq_getElem hk).symm.trans expList_first)
  | succ k ih =>
    rw [Function.iterate_succ_apply', ← ih (by omega)]
    exact (List.isChain_iff_getElem.mp expList_isChain k hk).symm

theorem expList_entry (k : Nat) (hk : k < expList.length) :
    expList[k] ≠ 0 ∧ logList[expList[k].toNat - 1]? = some (BitVec.ofNat 8 k) := by
  have h := List.all_eq_true.mp logList_expList (expList[k], k)
    (List.mem_iff_getElem.mpr ⟨k, by simpa using hk, by simp⟩)
  simpa using h

theorem expList_injective {k l : Nat} (hk : k < expList.length) (hl : l < expList.length)
    (h : expList[k] = expList[l]) : k = l := by
  have he := (expList_entry k hk).2
  rw [h, (expList_entry l hl).2] at he
  have hn := length_expList
  have := congrArg BitVec.toNat (Option.some.inj he)
  simp only [BitVec.toNat_ofNat] at this
  omega

theorem expList_surjective (j : Nat) (hj : j < 255) :
    ∃ (k : Nat) (hk : k < expList.length), expList[k].toNat = j + 1 := by
  have hn := length_expList
  have hpos (k : Nat) (hk : k < expList.length) : 0 < expList[k].toNat :=
    Nat.pos_of_ne_zero fun e => (expList_entry k hk).1 (BitVec.eq_of_toNat_eq (by simpa using e))
  let g : Fin 255 → Fin 255 := fun k =>
    ⟨(expList[k.val]'(by omega)).toNat - 1, by have := (expList[k.val]'(by omega)).isLt; omega⟩
  have hinj : Function.Injective g := by
    intro k l h
    have h' := congrArg Fin.val h
    simp only [g] at h'
    have h1 := hpos k.val (by omega)
    have h2 := hpos l.val (by omega)
    exact Fin.ext (expList_injective (by omega) (by omega) (BitVec.eq_of_toNat_eq (by omega)))
  obtain ⟨k, hk⟩ := (Finite.injective_iff_surjective.mp hinj) ⟨j, hj⟩
  have h' := congrArg Fin.val hk
  simp only [g] at h'
  have h1 := hpos k.val (by omega)
  exact ⟨k.val, by omega, by omega⟩

theorem standardTables_exp (j : Nat) (hj : j < 255) :
    standardTables.exp[j] = expList[j]'(by rw [length_expList]; exact hj) := by
  simp only [standardTables, Vector.getElem_mk, List.getElem_toArray]

theorem standardTables_log (j : Nat) (hj : j < 255) :
    standardTables.log[j] = logList[j]'(by rw [length_logList]; exact hj) := by
  simp only [standardTables, Vector.getElem_mk, List.getElem_toArray]

/-- The construction of rule R80 gives the tables of rules R82 and R83. -/
theorem buildTables_eq : buildTables = standardTables := by
  have hl := length_expList
  have hb : buildTables = (expList.zipIdx 0).foldl Tables.record blankTables := by
    rw [← buildStep_foldl expList 0 blankTables 1 expList_eq_iterate, hl, buildTables, List.range_eq_range']
  have hnd : expList.Nodup := by
    rw [List.nodup_iff_injective_get]
    exact fun k l h => Fin.ext (expList_injective k.isLt l.isLt h)
  have h0 : (0 : Byte) ∉ expList := fun h => by
    obtain ⟨k, hk, he⟩ := List.mem_iff_getElem.mp h
    exact (expList_entry k hk).1 he
  have ext : ∀ T : Tables, (∀ j (hj : j < 255), T.exp[j] = standardTables.exp[j]) →
      (∀ j (hj : j < 255), T.log[j] = standardTables.log[j]) → T = standardTables := by
    intro T he hg
    cases T
    congr 1
    · exact Vector.ext he
    · exact Vector.ext hg
  rw [hb]
  refine ext _ (fun j hj => ?_) (fun j hj => ?_)
  · have h := record_foldl_exp expList 0 blankTables j hj (by omega)
    rw [dif_pos (by omega)] at h
    rw [standardTables_exp j hj, h]
    exact getElem_congr_idx (Nat.sub_zero j)
  · obtain ⟨k, hk, he⟩ := expList_surjective j hj
    rw [record_foldl_log expList 0 _ j hj hnd h0 k hk he, standardTables_log, Nat.zero_add]
    have hg := (expList_entry k hk).2
    rw [he, Nat.add_sub_cancel, List.getElem?_eq_getElem (by rw [length_logList]; exact hj)] at hg
    exact (Option.some.inj hg).symm

/-! ### Reading the tables as powers of the generator -/

/-- An entry of EXP is a power of the generator x + 1 (R11). -/
theorem expAt_standard (i : Nat) : standardTables.expAt i = mul3^[i % 255] 1 := by
  rw [Tables.expAt, standardTables_exp _ (Nat.mod_lt _ (by decide)), expList_eq_iterate]

/-- A discrete log index is in 0..254 and the power at it is the element (R12). -/
theorem logAt_standard (v : Byte) (hv : v ≠ 0) :
    standardTables.logAt v hv < 255 ∧ mul3^[standardTables.logAt v hv] 1 = v := by
  have hpos : 0 < v.toNat := Nat.pos_of_ne_zero fun e => hv (BitVec.eq_of_toNat_eq (by simpa using e))
  have hlt := v.isLt
  have hn := length_expList
  obtain ⟨k, hk, he⟩ := expList_surjective (v.toNat - 1) (by omega)
  have hv' : expList[k] = v := BitVec.eq_of_toNat_eq (by omega)
  have hlog : standardTables.logAt v hv = k := by
    have hg := (expList_entry k hk).2
    rw [hv', List.getElem?_eq_getElem (by rw [length_logList]; omega)] at hg
    rw [Tables.logAt, standardTables_log _ (by omega), Option.some.inj hg, BitVec.toNat_ofNat,
      Nat.mod_eq_of_lt (by omega)]
  rw [hlog, ← expList_eq_iterate k hk]
  exact ⟨by omega, hv'⟩

/-- The group closes after 255 steps (R80, R84). -/
theorem iterate_mul3_order : mul3^[255] 1 = 1 := by
  have hn := length_expList
  rw [Function.iterate_succ_apply', ← expList_eq_iterate 254 (by omega),
    Option.some.inj ((List.getElem?_eq_getElem (by omega)).symm.trans expList_last)]
  decide

end Sys2Proof.Machine
end

