-- ==== Sys2Proof/Laws/Exec.lean ====
section
/-! SUPPORT. What each command can do, said once (R165, R167): it completes with its effect, or raises one of its own
errors. Later proofs cite `exec_next` instead of unfolding the meanings. -/

namespace Sys2Proof.Machine

/-- The state a command leaves when it completes, as far as the frame of the command needs it. -/
def Completed : Instr → State → State → Prop
  | .tbuild, s, t => t = s.setTables standardTables
  | .gfadd fd fa fb, s, t => t = s.setF fd (add (s.getF fa) (s.getF fb))
  | .gfmul fd fa fb, s, t => t = s.setF fd (mult s.tables (s.getF fa) (s.getF fb))
  | .gfdiv fd fa fb, s, t => ∃ q, div s.tables (s.getF fa) (s.getF fb) = .ok q ∧ t = s.setF fd q
  | .ldi fd imm8, s, t => t = s.setF fd imm8
  | .ldb fd addr, s, t => t = s.setF fd (s.bufByte addr.toNat)
  | .stb fs addr, s, t => t = s.writeByte addr.toNat (s.getF fs)
  | .crw cr imm16, s, t => cr.writable = true ∧ t = s.writeCR cr imm16
  | .mkpoly fa degree, s, t =>
    degree.toNat ≠ 0 ∧ s.polybase.toNat + (degree.toNat + 1) ≤ Config.bufSize ∧
    t = ((s.setRng (makePolynomial (s.getF fa) degree.toNat s.rng).2).writeBytes s.polybase.toNat
      (makePolynomial (s.getF fa) degree.toNat s.rng).1.coeffs).writeCR .polylen (BitVec.ofNat 16 (degree.toNat + 1))
  | .eval fd _, s, t => ∃ v, t = s.setF fd v
  | .interp fd _, s, t => ∃ v, t = s.setF fd v
  | .split, s, t => ∃ r vs, t = (s.setRng r).writeBytes s.shrbase.toNat vs
  | .combine, s, t => ∃ vs len, t = (s.writeBytes s.secbase.toNat vs).writeCR .seclen len

/-- The errors a command can raise (R160, R165). -/
def CanRaise : Instr → Cause → Prop
  | .tbuild, _ => False
  | .gfadd _ _ _, _ => False
  | .gfmul _ _ _, _ => False
  | .gfdiv _ _ _, c => c = .divisionByZero
  | .ldi _ _, _ => False
  | .ldb _ _, _ => False
  | .stb _ _, _ => False
  | .crw _ _, c => c = .illegal .crReadonly
  | .mkpoly _ _, c => c = .illegal .badDegree ∨ c = .illegal .badAddress
  | .eval _ _, c => c = .illegal .badLength ∨ c = .illegal .badAddress
  | .interp _ _, c => c = .illegal .badLength ∨ c = .illegal .badAddress ∨ c = .divisionByZero
  | .split, c => (∃ v, c = .validation v) ∨ c = .illegal .badAddress ∨ c = .illegal .overlap
  | .combine, c => (∃ v, c = .validation v) ∨ c = .illegal .badAddress ∨ c = .illegal .overlap ∨ c = .duplicateShare

/-! ### Division and interpolation -/

theorem div_error {T : Tables} {a b : Byte} {c : Cause} (h : div T a b = .error c) : c = .divisionByZero ∧ b = 0 := by
  unfold div at h
  split at h
  · rename_i hb; cases h; exact ⟨rfl, hb⟩
  · split at h <;> cases h

theorem div_zero (T : Tables) (a : Byte) : div T a 0x00 = .error .divisionByZero := by
  simp [div]

theorem div_ok (T : Tables) (a : Byte) {b : Byte} (hb : b ≠ 0) : ∃ q, div T a b = .ok q := by
  cases h : div T a b with
  | ok q => exact ⟨q, rfl⟩
  | error c => exact absurd (div_error h).2 hb

theorem add_eq_zero {a b : Byte} : add a b = 0 ↔ a = b := by
  unfold add
  constructor
  · intro h
    have := congrArg (· ^^^ b) h
    simpa [BitVec.xor_assoc] using this
  · rintro rfl; exact BitVec.xor_self

/-- The product of one sample's quotients, in the interpolator's own order. -/
theorem lagrangeBasis_cons (T : Tables) (x xi xj : Byte) (b : Byte) (others : List Byte) :
    (xj :: others).foldlM (fun basis xj => do
      let quotient ← div T (add x xj) (add xi xj)
      pure (mult T basis quotient)) b =
    (div T (add x xj) (add xi xj) >>= fun q => others.foldlM (fun basis xj => do
      let quotient ← div T (add x xj) (add xi xj)
      pure (mult T basis quotient)) (mult T b q)) := by
  rw [List.foldlM_cons]
  cases div T (add x xj) (add xi xj) <;> rfl

/-- The basis product exists when the sample is none of the others, and is a division by zero otherwise (R121). -/
theorem lagrangeBasis_fold (T : Tables) (x xi : Byte) (others : List Byte) (b : Byte) :
    (xi ∉ others → ∃ v, others.foldlM (fun basis xj => do
      let quotient ← div T (add x xj) (add xi xj)
      pure (mult T basis quotient)) b = .ok v) ∧
    (xi ∈ others → others.foldlM (fun basis xj => do
      let quotient ← div T (add x xj) (add xi xj)
      pure (mult T basis quotient)) b = .error .divisionByZero) := by
  induction others generalizing b with
  | nil => exact ⟨fun _ => ⟨b, rfl⟩, fun h => absurd h (by simp)⟩
  | cons xj others ih =>
    rw [lagrangeBasis_cons]
    by_cases hx : xi = xj
    · subst hx
      have : add xi xi = 0x00 := add_eq_zero.mpr rfl
      rw [this, div_zero]
      exact ⟨fun h => absurd (by simp) h, fun _ => rfl⟩
    · obtain ⟨q, hq⟩ := div_ok T (add x xj) (fun h => hx (add_eq_zero.mp h))
      rw [hq]
      simp only [List.mem_cons, hx, false_or]
      exact ih (mult T b q)

theorem lagrangeBasis_ok (T : Tables) (x : Byte) {xi : Byte} {others : List Byte} (h : xi ∉ others) :
    ∃ v, lagrangeBasis T x xi others = .ok v := (lagrangeBasis_fold T x xi others 0x01).1 h

theorem lagrangeBasis_error (T : Tables) (x : Byte) {xi : Byte} {others : List Byte} (h : xi ∈ others) :
    lagrangeBasis T x xi others = .error .divisionByZero := (lagrangeBasis_fold T x xi others 0x01).2 h

theorem notMem_eraseIdx_of_nodup {xs : List Byte} (h : xs.Nodup) (i : Nat) (hi : i < xs.length) :
    xs[i] ∉ xs.eraseIdx i := by
  intro hm
  obtain ⟨k, hk, he⟩ := List.mem_iff_getElem.mp hm
  rw [List.length_eraseIdx_of_lt hi] at hk
  rw [List.getElem_eraseIdx] at he
  split at he <;> · have := (h.getElem_inj_iff).mp he; omega

/-- The interpolator's sum over a list of (sample, place) pairs whose basis products all exist. -/
theorem interpolate_fold_ok (T : Tables) (x : Byte) (xs : List Byte) (samples : List ((Byte × Byte) × Nat)) (r : Byte)
    (h : ∀ p ∈ samples, p.1.1 ∉ xs.eraseIdx p.2) :
    ∃ v, samples.foldlM (fun result sample => do
      let basis ← lagrangeBasis T x sample.1.1 (xs.eraseIdx sample.2)
      pure (add result (mult T sample.1.2 basis))) r = Except.ok (ε := Cause) v := by
  induction samples generalizing r with
  | nil => exact ⟨r, rfl⟩
  | cons p samples ih =>
    obtain ⟨b, hb⟩ := lagrangeBasis_ok T x (h p (by simp))
    rw [List.foldlM_cons, hb]
    exact ih _ fun q hq => h q (by simp [hq])

/-- On distinct x samples `interpolateAt` has no failure (R121). -/
theorem interpolateAt_ok (T : Tables) {xs : List Byte} (ys : List Byte) (x : Byte) (h : xs.Nodup) :
    ∃ v, interpolateAt T xs ys x = .ok v := by
  refine interpolate_fold_ok T x xs _ _ fun p hp => ?_
  obtain ⟨k, hk, he⟩ := List.mem_iff_getElem.mp hp
  simp only [List.length_zipIdx, List.length_zip] at hk
  have hx : k < xs.length := by omega
  have := notMem_eraseIdx_of_nodup h k hx
  rw [← he]
  simpa using this

/-- The only failure of `interpolateAt` is the division by zero, and only on a repeated x sample (R121). -/
theorem interpolateAt_error {T : Tables} {xs ys : List Byte} {x : Byte} {c : Cause}
    (h : interpolateAt T xs ys x = .error c) : c = .divisionByZero ∧ ¬ xs.Nodup := by
  refine ⟨?_, fun hn => ?_⟩
  · have key : ∀ (samples : List ((Byte × Byte) × Nat)) (r : Byte),
        samples.foldlM (fun result sample => do
          let basis ← lagrangeBasis T x sample.1.1 (xs.eraseIdx sample.2)
          pure (add result (mult T sample.1.2 basis))) r = Except.error c → c = .divisionByZero := by
      intro samples
      induction samples with
      | nil => intro r h; cases h
      | cons p samples ih =>
        intro r h
        rw [List.foldlM_cons] at h
        by_cases hm : p.1.1 ∈ xs.eraseIdx p.2
        · rw [lagrangeBasis_error T x hm] at h
          cases h; rfl
        · obtain ⟨b, hb⟩ := lagrangeBasis_ok T x hm
          rw [hb] at h
          exact ih _ h
    exact key _ _ h
  · obtain ⟨v, hv⟩ := interpolateAt_ok T ys x hn
    rw [hv] at h; cases h

theorem mapM_ok {α β ε : Type} (f : α → Except ε β) (l : List α) (h : ∀ a ∈ l, ∃ b, f a = .ok b) :
    ∃ bs, l.mapM f = .ok bs ∧ bs.length = l.length ∧
      ∀ (i : Nat) (hi : i < l.length) (hb : i < bs.length), f l[i] = .ok bs[i] := by
  induction l with
  | nil => exact ⟨[], rfl, rfl, fun i hi => absurd hi (by simp)⟩
  | cons a l ih =>
    obtain ⟨b, hb⟩ := h a (by simp)
    obtain ⟨bs, hbs, hlen, hget⟩ := ih fun c hc => h c (by simp [hc])
    refine ⟨b :: bs, by rw [List.mapM_cons, hb, hbs]; rfl, by simp [hlen], fun i hi hi' => ?_⟩
    cases i with
    | zero => exact hb
    | succ i => exact hget i (by simpa using hi) (by simpa using hi')

/-- `combine` steps 2 and 3 fail only on a repeated coordinate: no division by zero can come from them (R144). -/
theorem combineShares_error {T : Tables} {len : Nat} {shares : List Share} {c : Cause}
    (h : combineShares T len shares = .error c) : c = .duplicateShare := by
  simp only [combineShares] at h
  split at h
  · rename_i hn
    obtain ⟨bs, hbs, -⟩ := mapM_ok (fun i => interpolateAt T (column shares (len - 1)) (column shares i) 0x00)
      (List.range (len - 1)) fun i _ => interpolateAt_ok T _ _ hn
    simp only [hbs] at h
    cases h
  · cases h; rfl

theorem checkCombineRegions_cases {secbase descbase n len : Nat} {addrs : List Nat} {c : IllegalCause}
    (h : checkCombineRegions secbase descbase n len addrs = some c) : c = .badAddress ∨ c = .overlap := by
  unfold checkCombineRegions at h
  split at h
  · cases h; exact .inl rfl
  · split at h
    · cases h; exact .inr rfl
    · cases h

/-! ### The inversion lemma -/

/-- What a command can do: complete with its effect, or raise one of its own errors and change nothing else. -/
theorem exec_next {i : Instr} {s t : State} (h : exec i s = .next t) :
    Completed i s t ∨ ∃ c, CanRaise i c ∧ t = s.raise (encode i) c := by
  cases i <;> simp only [exec] at h <;> rcases runCommand_next h with he | ⟨c, he, rfl⟩
  case tbuild.inl => exact .inl ((Except.ok.inj he).symm.trans (by rw [buildTables_eq]))
  case tbuild.inr => cases he
  case gfadd.inl => cases he; exact .inl rfl
  case gfadd.inr => cases he
  case gfmul.inl => cases he; exact .inl rfl
  case gfmul.inr => cases he
  case gfdiv.inl => split at he <;> cases he; exact .inl ⟨_, ‹_›, rfl⟩
  case gfdiv.inr => split at he <;> cases he; exact .inr ⟨c, (div_error ‹_›).1, rfl⟩
  case ldi.inl => cases he; exact .inl rfl
  case ldi.inr => cases he
  case ldb.inl => cases he; exact .inl rfl
  case ldb.inr => cases he
  case stb.inl => cases he; exact .inl rfl
  case stb.inr => cases he
  case crw.inl => split at he <;> cases he; exact .inl ⟨‹_›, rfl⟩
  case crw.inr => split at he <;> cases he; exact .inr ⟨_, rfl, rfl⟩
  case mkpoly.inl fa degree =>
    split at he
    · cases he
    · split at he <;> cases he
      rename_i h0 hr
      exact .inl ⟨h0, by simpa [regionInRange] using hr, rfl⟩
  case mkpoly.inr =>
    split at he
    · cases he; exact .inr ⟨_, .inl rfl, rfl⟩
    · split at he <;> cases he
      exact .inr ⟨_, .inr rfl, rfl⟩
  case eval.inl =>
    split at he
    · cases he
    · split at he <;> cases he
      exact .inl ⟨_, rfl⟩
  case eval.inr =>
    split at he
    · cases he; exact .inr ⟨_, .inl rfl, rfl⟩
    · split at he <;> cases he
      exact .inr ⟨_, .inr rfl, rfl⟩
  case interp.inl =>
    split at he
    · cases he
    · split at he
      · cases he
      · split at he <;> cases he
        exact .inl ⟨_, rfl⟩
  case interp.inr =>
    split at he
    · cases he; exact .inr ⟨_, .inl rfl, rfl⟩
    · split at he
      · cases he; exact .inr ⟨_, .inr (.inl rfl), rfl⟩
      · split at he <;> cases he
        exact .inr ⟨_, .inr (.inr (interpolateAt_error ‹_›).1), rfl⟩
  case split.inl =>
    split at he
    · cases he
    · split at he
      · cases he
      · split at he <;> cases he
        exact .inl ⟨_, _, rfl⟩
  case split.inr =>
    split at he
    · cases he; exact .inr ⟨_, .inl ⟨_, rfl⟩, rfl⟩
    · split at he
      · cases he; exact .inr ⟨_, .inr (.inl rfl), rfl⟩
      · split at he <;> cases he
        exact .inr ⟨_, .inr (.inr rfl), rfl⟩
  case combine.inl =>
    split at he
    · cases he
    · split at he
      · cases he
      · split at he
        · cases he
        · split at he
          · cases he
          · split at he <;> cases he
            exact .inl ⟨_, _, rfl⟩
  case combine.inr =>
    split at he
    · cases he; exact .inr ⟨_, .inl ⟨_, rfl⟩, rfl⟩
    · split at he
      · cases he; exact .inr ⟨_, .inr (.inl rfl), rfl⟩
      · split at he
        · cases he; exact .inr ⟨_, .inl ⟨_, rfl⟩, rfl⟩
        · split at he
          · cases he
            rcases checkCombineRegions_cases ‹_› with rfl | rfl
            · exact .inr ⟨_, .inr (.inl rfl), rfl⟩
            · exact .inr ⟨_, .inr (.inr (.inl rfl)), rfl⟩
          · split at he <;> cases he
            exact .inr ⟨_, .inr (.inr (.inr (combineShares_error ‹_›))), rfl⟩

end Sys2Proof.Machine
end

