-- ==== Sys2Proof/Laws/Field.lean ====
section
/-! SUPPORT. The field seen from the generator: multiplying by x + 1 and by x is linear, and `mult` by a nonzero byte
is that many steps of the generator (R80, R92). -/

namespace Sys2Proof.Machine

/-- Multiplying by x respects the field's addition (R1, R90). -/
theorem timesX_xor (a b : Byte) : timesX (a ^^^ b) = timesX a ^^^ timesX b := by
  simp only [timesX, BitVec.msb_xor]
  cases a.msb <;> cases b.msb <;> simp only [BitVec.shiftLeft_xor_distrib, Bool.xor_true, Bool.xor_false,
    Bool.not_true, Bool.not_false, if_true, if_false, Bool.false_eq_true]
    <;> ac_nf
  simp

/-- Multiplying by x + 1 is multiplying by x and adding (R80). -/
theorem mul3_eq (a : Byte) : mul3 a = timesX a ^^^ a := by
  revert a; decide +kernel

/-- Multiplying by x + 1 respects the field's addition (R80, R90). -/
theorem mul3_xor (a b : Byte) : mul3 (a ^^^ b) = mul3 a ^^^ mul3 b := by
  simp only [mul3_eq, timesX_xor]; ac_rfl

theorem mul3_iterate_xor (n : Nat) (a b : Byte) : mul3^[n] (a ^^^ b) = mul3^[n] a ^^^ mul3^[n] b := by
  induction n with
  | zero => rfl
  | succ n ih => simp only [Function.iterate_succ_apply', ih, mul3_xor]

theorem mul3_iterate_zero (n : Nat) : mul3^[n] 0 = 0 := by
  induction n with
  | zero => rfl
  | succ n ih => rw [Function.iterate_succ_apply', ih]; decide

/-- A power of the generator depends on its exponent modulo 255 only (R80). -/
theorem iterate_mul3_mod (n : Nat) : mul3^[n % 255] 1 = mul3^[n] 1 := by
  have h : ∀ k, mul3^[255 * k] 1 = 1 := by
    intro k
    induction k with
    | zero => rfl
    | succ k ih => rw [Nat.mul_succ, Function.iterate_add_apply, iterate_mul3_order, ih]
  conv_rhs => rw [← Nat.mod_add_div n 255, Function.iterate_add_apply, h]

/-- `mult` by a nonzero byte is as many generator steps as its logarithm says (R92). -/
theorem mult_eq_iterate (a b : Byte) (ha : a ≠ 0) :
    mult standardTables a b = mul3^[standardTables.logAt a ha] b := by
  have hza : isZero a = false := by simpa [isZero] using ha
  by_cases hb : b = 0
  · subst hb; rw [mul3_iterate_zero]; simp [mult, isZero]
  · have hzb : isZero b = false := by simpa [isZero] using hb
    simp only [mult, hza, hzb, Bool.false_eq_true, dite_false]
    rw [expAt_standard, iterate_mul3_mod, Function.iterate_add_apply, (logAt_standard b hb).2]

end Sys2Proof.Machine
end

