-- ==== Sys2Proof/Laws/PerInstr.lean ====
section
/-! SUPPORT. Made instruction by instruction: the word of every instruction lies in its own row of the opcode map
(R64). -/

namespace Sys2Proof.Laws

/-- The row of the opcode map that an instruction stands for (R64). -/
def rowOf : Instr → OpcodeRow
  | .tbuild => ⟨.tbuild, 0x01, 0x01000000, 0xFFFFFFFF⟩
  | .gfadd _ _ _ => ⟨.gfadd, 0x10, 0x10000000, 0xFF000FFF⟩
  | .gfmul _ _ _ => ⟨.gfmul, 0x11, 0x11000000, 0xFF000FFF⟩
  | .gfdiv _ _ _ => ⟨.gfdiv, 0x12, 0x12000000, 0xFF000FFF⟩
  | .ldi _ _ => ⟨.ldi, 0x20, 0x20000000, 0xFF0FFF00⟩
  | .ldb _ _ => ⟨.ldb, 0x21, 0x21000000, 0xFF0F0000⟩
  | .stb _ _ => ⟨.stb, 0x22, 0x22000000, 0xFF0F0000⟩
  | .crw _ _ => ⟨.crw, 0x23, 0x23000000, 0xFF0F0000⟩
  | .mkpoly _ _ => ⟨.mkpoly, 0x30, 0x30000000, 0xFFF0FF00⟩
  | .eval _ _ => ⟨.eval, 0x31, 0x31000000, 0xFF00FFFF⟩
  | .interp _ _ => ⟨.interp, 0x40, 0x40000000, 0xFF00FFFF⟩
  | .split => ⟨.split, 0x50, 0x50000000, 0xFFFFFFFF⟩
  | .combine => ⟨.combine, 0x51, 0x51000000, 0xFFFFFFFF⟩

theorem rowOf_mem (i : Instr) : rowOf i ∈ opcodeMap := by cases i <;> simp [rowOf, opcodeMap]

/-! ### The bits a format leaves for the row -/

theorem packR3_mask (op : Byte) (rd ra rb : Fin 16) : packR3 op rd ra rb &&& 0xFF000FFF = op ++ (0 : BitVec 24) := by
  ext k hk
  simp only [packR3, BitVec.getElem_and, BitVec.getElem_append]
  interval_cases k <;> simp

theorem packR2_mask (op : Byte) (rd ra : Fin 16) : packR2 op rd ra &&& 0xFF00FFFF = op ++ (0 : BitVec 24) := by
  ext k hk
  simp only [packR2, BitVec.getElem_and, BitVec.getElem_append]
  interval_cases k <;> simp

theorem packRI_mask (op : Byte) (rd : Fin 16) (imm8 : Byte) :
    packRI op rd imm8 &&& 0xFF0FFF00 = op ++ (0 : BitVec 24) := by
  ext k hk
  simp only [packRI, BitVec.getElem_and, BitVec.getElem_append]
  interval_cases k <;> simp

theorem packPI_mask (op : Byte) (ra : Fin 16) (imm8 : Byte) :
    packPI op ra imm8 &&& 0xFFF0FF00 = op ++ (0 : BitVec 24) := by
  ext k hk
  simp only [packPI, BitVec.getElem_and, BitVec.getElem_append]
  interval_cases k <;> simp

theorem packM_mask (op : Byte) (rd : Fin 16) (imm16 : Word) :
    packM op rd imm16 &&& 0xFF0F0000 = op ++ (0 : BitVec 24) := by
  ext k hk
  simp only [packM, BitVec.getElem_and, BitVec.getElem_append]
  interval_cases k <;> simp

/-- The word of an instruction is in its row of the opcode map, and the row is one of the map's (R64). -/
def MatchesRow.Statement (i : Instr) : Prop :=
  rowOf i ∈ opcodeMap ∧ encode i &&& (rowOf i).mask = (rowOf i).pattern

theorem MatchesRow.tbuild : MatchesRow.Statement .tbuild := by unfold MatchesRow.Statement; decide

theorem MatchesRow.gfadd (fd fa fb : FReg) : MatchesRow.Statement (.gfadd fd fa fb) :=
  ⟨rowOf_mem _, packR3_mask 0x10 fd fa fb⟩

theorem MatchesRow.gfmul (fd fa fb : FReg) : MatchesRow.Statement (.gfmul fd fa fb) :=
  ⟨rowOf_mem _, packR3_mask 0x11 fd fa fb⟩

theorem MatchesRow.gfdiv (fd fa fb : FReg) : MatchesRow.Statement (.gfdiv fd fa fb) :=
  ⟨rowOf_mem _, packR3_mask 0x12 fd fa fb⟩

theorem MatchesRow.ldi (fd : FReg) (imm8 : Byte) : MatchesRow.Statement (.ldi fd imm8) :=
  ⟨rowOf_mem _, packRI_mask 0x20 fd imm8⟩

theorem MatchesRow.ldb (fd : FReg) (addr : Word) : MatchesRow.Statement (.ldb fd addr) :=
  ⟨rowOf_mem _, packM_mask 0x21 fd addr⟩

theorem MatchesRow.stb (fs : FReg) (addr : Word) : MatchesRow.Statement (.stb fs addr) :=
  ⟨rowOf_mem _, packM_mask 0x22 fs addr⟩

theorem MatchesRow.crw (cr : CReg) (imm16 : Word) : MatchesRow.Statement (.crw cr imm16) :=
  ⟨rowOf_mem _, packM_mask 0x23 cr.num imm16⟩

theorem MatchesRow.mkpoly (fa : FReg) (degree : Byte) : MatchesRow.Statement (.mkpoly fa degree) :=
  ⟨rowOf_mem _, packPI_mask 0x30 fa degree⟩

theorem MatchesRow.eval (fd fa : FReg) : MatchesRow.Statement (.eval fd fa) :=
  ⟨rowOf_mem _, packR2_mask 0x31 fd fa⟩

theorem MatchesRow.interp (fd fa : FReg) : MatchesRow.Statement (.interp fd fa) :=
  ⟨rowOf_mem _, packR2_mask 0x40 fd fa⟩

theorem MatchesRow.split : MatchesRow.Statement .split := by unfold MatchesRow.Statement; decide

theorem MatchesRow.combine : MatchesRow.Statement .combine := by unfold MatchesRow.Statement; decide

end Sys2Proof.Laws
end

