-- ==== Sys2Proof/Tests/Slice0.lean ====
section
/-! SUPPORT. Tests against the spec's own words and vectors (95_test_vectors.md, cited as V<n> and P<n>), and for every
statement with hypotheses a state and operands that meet them. -/

set_option Elab.async false

namespace Sys2Proof.Machine.Tests

/-! ### Small states -/

/-- The next state, if the outcome is one. -/
def nextOf : Host.Outcome State Fault Refusal → Option State
  | .next t => some t
  | .fault _ => none
  | .refused _ => none

/-- One F byte after a command. -/
def fAfter (i : Instr) (s : State) (r : FReg) : Option Byte := (nextOf (exec i s)).map (·.getF r)

/-- STATUS after a command. -/
def statusAfter (i : Instr) (s : State) : Option Word := (nextOf (exec i s)).map (·.status)

/-- STATUS, ERRCMDH and ERRCMDL after an outcome. -/
def errorOf (o : Host.Outcome State Fault Refusal) : Option (Word × Word × Word) :=
  (nextOf o).map fun t => (t.status, t.errcmdh, t.errcmdl)

/-- Bytes of BUF after a command. -/
def bytesAfter (i : Instr) (s : State) (a n : Nat) : Option (List Byte) :=
  (nextOf (exec i s)).map (·.readBytes a n)

/-- The state after reset with two F registers set. -/
def twoF (a b : Byte) : State := (State.reset.setF 0 a).setF 1 b

/-- The state after reset with the host's next action. -/
def awaiting (act : HostAction) : State := { State.reset with host := [act] }

/-- The state in HELD after `crw CAP, 5` (V130). -/
def held : State := State.reset.withError 0x23300005 0x0134

/-- The state in FATAL after `gfdiv f1, f0, f2` (P3). -/
def fatal : State := State.reset.withError 0x12102000 0x0203

/-- A random source that returns the given coefficient draws (as bytes 1..255 less one) and one permutation. -/
def drawing (coeffs : List (Fin 255)) (perm : Equiv.Perm (Fin 255)) : RandomSource :=
  ⟨coeffs, [PermDraw.ofPerm perm], 0, 0⟩

/-- SPLIT of the one byte 2A with PARTS = THRESH = 2 and V76's draws, shares at `shrbase`. -/
def splitAt (shrbase : Word) : State :=
  ({ State.reset with seclen := 1, parts := 2, thresh := 2, shrbase := shrbase, rng := drawing [0x00] 1 } : State)
    |>.writeBytes 0 [0x2A]

/-- The state after reset with the parameters of SPLIT. -/
def splitWith (thresh parts seclen : Word) : State :=
  { State.reset with thresh := thresh, parts := parts, seclen := seclen }

/-- COMBINE of two shares of length 2 at 0x0010 and 0x0012, the table at 0x0040. -/
def combineOf (shares : List Byte) (secbase : Word) : State :=
  (({ State.reset with nshares := 2, descbase := 0x0040, secbase := secbase } : State)
    |>.writeBytes 0x0010 shares).writeBytes 0x0040 [0x10, 0x00, 0x02, 0x00, 0x12, 0x00, 0x02, 0x00]

/-- INTERP samples at 0x0200 and 0x0210. -/
def samples (xs ys : List Byte) : State :=
  (({ State.reset with nsamp := BitVec.ofNat 16 xs.length, xsbase := 0x0200, ysbase := 0x0210 } : State)
    |>.writeBytes 0x0200 xs).writeBytes 0x0210 ys

/-- EVAL of the polynomial [2A, 53, CA] at the point in F[0] (V50 to V56). -/
def polyAt (x : Byte) : State :=
  (({ State.reset with polylen := 3, polybase := 0x0100 } : State).setF 0 x).writeBytes 0x0100 [0x2A, 0x53, 0xCA]

/-! ### Well-formed words (R66, R68) -/

theorem test_illFormed_opcode : wordWellFormed 0x00000000 = false ∧ wordWellFormed 0xFFFFFFFF = false ∧
    wordWellFormed 0x13000000 = false := by decide

theorem test_illFormed_z : wordWellFormed 0x01000001 = false ∧ wordWellFormed 0x50000001 = false := by decide

theorem test_illFormed_r3 : wordWellFormed 0x10430001 = false := by decide

theorem test_illFormed_r2 : wordWellFormed 0x31270100 = false := by decide

theorem test_illFormed_ri : wordWellFormed 0x20010057 = false := by decide

theorem test_illFormed_pi : wordWellFormed 0x30110002 = false ∧ wordWellFormed 0x30010102 = false := by decide

theorem test_illFormed_m : wordWellFormed 0x21510000 = false := by decide

theorem test_illFormed_c : wordWellFormed 0x23710003 = false := by decide

theorem test_wellFormed_words : wordWellFormed 0x10430000 = true ∧ wordWellFormed 0x31270000 = true ∧
    wordWellFormed 0x20000057 = true ∧ wordWellFormed 0x30010002 = true ∧ wordWellFormed 0x21501234 = true ∧
    wordWellFormed 0x23700003 = true ∧ wordWellFormed 0x50000000 = true := by decide

theorem test_every_instr_wellFormed (i : Instr) : i.wellFormed = true := by cases i <;> rfl

/-! ### Decoding: words written out from the formats of rule R62 -/

theorem test_decode_tbuild : decode 0b00000001000000000000000000000000 = .ok .tbuild := by decide

theorem test_decode_gfadd : decode 0b00010000010000110010000000000000 = .ok (.gfadd 4 3 2) := by decide

theorem test_decode_gfmul : decode 0b00010001001000000001000000000000 = .ok (.gfmul 2 0 1) := by decide

theorem test_decode_gfdiv : decode 0b00010010001100100001000000000000 = .ok (.gfdiv 3 2 1) := by decide

theorem test_decode_ldi : decode 0b00100000111100000000000001010111 = .ok (.ldi 15 0x57) := by decide

theorem test_decode_ldb : decode 0b00100001010100000001001000110100 = .ok (.ldb 5 0x1234) := by decide

theorem test_decode_stb : decode 0b00100010010100000001001000110100 = .ok (.stb 5 0x1234) := by decide

theorem test_decode_crw : decode 0b00100011011100000000000000000011 = .ok (.crw .thresh 3) := by decide

theorem test_decode_mkpoly : decode 0b00110000000000010000000000000010 = .ok (.mkpoly 1 2) := by decide

theorem test_decode_eval : decode 0b00110001001001110000000000000000 = .ok (.eval 2 7) := by decide

theorem test_decode_interp : decode 0b01000000000010010000000000000000 = .ok (.interp 0 9) := by decide

theorem test_decode_split : decode 0b01010000000000000000000000000000 = .ok .split := by decide

theorem test_decode_combine : decode 0b01010001000000000000000000000000 = .ok .combine := by decide

/-- V120 to V122 and V123 to V129. -/
theorem test_decode_refuses : decode 0x00000000 = .error .reservedOpcode ∧ decode 0xFFFFFFFF = .error .reservedOpcode ∧
    decode 0x13000000 = .error .reservedOpcode ∧ decode 0x10430001 = .error .reservedBits ∧
    decode 0x31270100 = .error .reservedBits ∧ decode 0x20010057 = .error .reservedBits ∧
    decode 0x30110002 = .error .reservedBits ∧ decode 0x21510000 = .error .reservedBits ∧
    decode 0x23710003 = .error .reservedBits ∧ decode 0x01000001 = .error .reservedBits := by decide

theorem test_decodeTableWord : decodeTableWord 32 0x11201000 = some (.gfmul 2 0 1) ∧
    decodeTableWord 32 0x13000000 = none := by decide

/-! ### One command each -/

/-- V1 and V4. -/
theorem test_mul3 : mul3 0xFF = 0x1A ∧ mul3 0x96 = 0xA1 ∧ mul3 0xF6 = 0x01 := by decide

/-- V4, from a state whose tables hold zeros. -/
theorem test_tbuild : (nextOf (exec .tbuild (State.reset.setTables blankTables))).map (·.tables.expAt 254) =
    some 0xF6 := by decide +kernel

/-- V10. -/
theorem test_gfadd : fAfter (.gfadd 5 0 1) (twoF 0x57 0x83) 5 = some 0xD4 := by decide +kernel

/-- V13, with the destination a source too. -/
theorem test_gfadd_same : fAfter (.gfadd 0 0 0) (twoF 0xA5 0x00) 0 = some 0x00 := by decide +kernel

/-- V20. -/
theorem test_gfmul : fAfter (.gfmul 2 0 1) (twoF 0x57 0x83) 2 = some 0xC1 := by decide +kernel

/-- V24: the sum of the logarithms is 255. -/
theorem test_gfmul_wraps : fAfter (.gfmul 0 0 1) (twoF 0xF6 0x03) 0 = some 0x01 := by decide +kernel

/-- V36: the difference of the logarithms is negative. -/
theorem test_gfdiv : fAfter (.gfdiv 2 0 1) (twoF 0x01 0x03) 2 = some 0xF6 := by decide +kernel

/-- V46: the zero divisor is found before the zero dividend; P3 line 2: the word is recorded. -/
theorem test_gfdiv_zero : errorOf (exec (.gfdiv 1 0 2) State.reset) = some (0x0203, 0x1210, 0x2000) := by decide +kernel

/-- V131. -/
theorem test_ldi : fAfter (.ldi 15 0xFF) State.reset 15 = some 0xFF := by decide +kernel

/-- V132. -/
theorem test_stb : bytesAfter (.stb 5 0xFFFF) (State.reset.setF 5 0xB3) 0xFFFF 1 = some [0xB3] := by decide +kernel

/-- V132. -/
theorem test_ldb : fAfter (.ldb 6 0xFFFF) (State.reset.writeBytes 0xFFFF [0xB3]) 6 = some 0xB3 := by decide +kernel

/-- V133. -/
theorem test_crw : (nextOf (exec (.crw .nsamp 0xFFFF) State.reset)).map (·.nsamp) = some 0xFFFF := by decide +kernel

/-- V130: the error's STATUS and the word recorded. -/
theorem test_crw_readOnly : errorOf (exec (.crw .cap 5) State.reset) = some (0x0134, 0x2330, 0x0005) := by decide +kernel

/-- P5 line 3. -/
theorem test_mkpoly : bytesAfter (.mkpoly 1 2)
    ({ (State.reset.setF 1 0x2A) with polybase := 0x0100, rng := drawing [0x52, 0xC9] 1 } : State) 0x0100 3 =
    some [0x2A, 0x53, 0xCA] := by decide +kernel

/-- V61. -/
theorem test_mkpoly_outside : statusAfter (.mkpoly 1 255) { State.reset with polybase := 0xFF01 } = some 0x0144 := by
  decide +kernel

/-- V52. -/
theorem test_eval : fAfter (.eval 1 0) (polyAt 0x02) 1 = some 0x89 := by decide +kernel

/-- V56. -/
theorem test_eval_ff : fAfter (.eval 0 0) (polyAt 0xFF) 0 = some 0xB7 := by decide +kernel

/-- V66. -/
theorem test_interp : fAfter (.interp 1 0) (samples [0x01, 0x03, 0x05] [0xB3, 0x10, 0xF0]) 1 = some 0x2A := by
  decide +kernel

/-- V84. -/
theorem test_interp_duplicate : statusAfter (.interp 1 0) (samples [0x07, 0x07] [0x01, 0x02]) = some 0x0203 := by
  decide +kernel

/-- V103: the shares end at the last byte of BUF. -/
theorem test_split : bytesAfter .split (splitAt 0xFFFC) 0xFFFC 4 = some [0x2B, 0x01, 0x28, 0x02] := by decide +kernel

/-- V75: two secret bytes, a permutation that begins 4, 1, 7. -/
theorem test_split_order : bytesAfter .split
    ({ State.reset with
        seclen := 2, parts := 3, thresh := 2, shrbase := 0x0010,
        rng := drawing [0x1C, 0xDF] (Equiv.swap 0 4 * Equiv.swap 2 7) } |>.writeBytes 0 [0x2A, 0x07]) 0x0010 9 =
    some [0x43, 0x4A, 0x05, 0x10, 0xDC, 0x02, 0xC2, 0x46, 0x08] := by decide +kernel

/-- P6 line 9 (V81). -/
theorem test_combine : bytesAfter .combine (combineOf [0xB3, 0x01, 0x89, 0x02] 0x0080) 0x0080 1 = some [0xA5] := by
  decide +kernel

/-- V101. -/
theorem test_combine_duplicate : statusAfter .combine (combineOf [0x2A, 0x05, 0x99, 0x05] 0x0080) = some 0x0102 := by
  decide +kernel

/-! ### The host interface -/

/-- P4 line 13. -/
theorem test_step_reservedBits : errorOf (step (awaiting (.issue 0x50000001))) = some (0x0124, 0x5000, 0x0001) := by
  decide +kernel

/-- P3 line 4: ACK does nothing in FATAL. -/
theorem test_step_ack_fatal : errorOf (step { fatal with host := [.ack] }) = some (0x0203, 0x1210, 0x2000) := by
  decide +kernel

/-- A word placed with `withFetchWord` runs as the first command after reset. -/
theorem test_step_placedWord : (nextOf (step (State.reset.withFetchWord 32 0x20F000FF))).map (·.getF 15) =
    some 0xFF := by decide +kernel

/-! ### Witnesses: for each statement with hypotheses, values that meet them, at the ends of each clause's range -/

theorem reset_good : State.reset.Good := ⟨rfl, .inl rfl, fun _ => ⟨rfl, rfl⟩, List.Pairwise.nil, by simp [State.reset]⟩

theorem held_good : held.Good :=
  ⟨rfl, .inr ⟨.illegal .crReadonly, rfl⟩, fun h => absurd h (by decide), List.Pairwise.nil, by simp [held, State.withError, State.reset]⟩

theorem witness_EncodeAfterDecode : decode 0x23F0FFFF = .ok (.crw .nsamp 0xFFFF) := by decide

/-- All three cases, the last at an opcode without operands and at one with. -/
theorem witness_DecoderRefusesByName :
    formatOf (opcodeField 0x13000000) = none ∧
    (formatOf (opcodeField 0x50000001) = some .z ∧ reservedBitsZero .z 0x50000001 = false) ∧
    (formatOf (opcodeField 0x50000000) = some .z ∧ reservedBitsZero .z 0x50000000 = true) ∧
    (formatOf (opcodeField 0x1043F000) = some .r3 ∧ reservedBitsZero .r3 0x1043F000 = true) := by decide

theorem witness_StepRunsIssuedCommand :
    (awaiting (.issue 0x11201000)).host = [.issue 0x11201000] ∧
    statusRun (awaiting (.issue 0x11201000)).status = runReady ∧ decode 0x11201000 = .ok (.gfmul 2 0 1) := by decide

/-- READY, and both run states that are not. -/
theorem witness_PlacedWordRunsNext :
    statusRun State.reset.status = runReady ∧ statusRun held.status ≠ runReady ∧ statusRun fatal.status ≠ runReady := by
  decide

/-- A reserved opcode, the all-zero word and the all-one word. -/
theorem witness_ReservedOpcodeRaises :
    (awaiting (.issue 0x13000000)).host = [.issue 0x13000000] ∧
    statusRun (awaiting (.issue 0x13000000)).status = runReady ∧
    opcodeField 0x13000000 ∉
      ([0x01, 0x10, 0x11, 0x12, 0x20, 0x21, 0x22, 0x23, 0x30, 0x31, 0x40, 0x50, 0x51] : List Byte) ∧
    (awaiting (.issue 0x00000000)).host = [.issue 0x00000000] ∧
    (awaiting (.issue 0xFFFFFFFF)).host = [.issue 0xFFFFFFFF] := by decide

/-- One word of each format, V123 to V129. -/
theorem witness_ReservedBitsRaise :
    (awaiting (.issue 0x10430001)).host = [.issue 0x10430001] ∧
    statusRun (awaiting (.issue 0x10430001)).status = runReady ∧
    (formatOf (opcodeField 0x10430001) = some .r3 ∧ reservedBitsZero .r3 0x10430001 = false) ∧
    (formatOf (opcodeField 0x01000001) = some .z ∧ reservedBitsZero .z 0x01000001 = false) ∧
    (formatOf (opcodeField 0x31270100) = some .r2 ∧ reservedBitsZero .r2 0x31270100 = false) ∧
    (formatOf (opcodeField 0x20010057) = some .ri ∧ reservedBitsZero .ri 0x20010057 = false) ∧
    (formatOf (opcodeField 0x30110002) = some .pi ∧ reservedBitsZero .pi 0x30110002 = false) ∧
    (formatOf (opcodeField 0x21510000) = some .m ∧ reservedBitsZero .m 0x21510000 = false) ∧
    (formatOf (opcodeField 0x23710003) = some .c ∧ reservedBitsZero .c 0x23710003 = false) := by decide

theorem witness_NotAcceptedOutsideReady :
    ({ held with host := [.issue 0x20700011] } : State).host = [.issue 0x20700011] ∧
    statusRun held.status = runHeld ∧ statusRun fatal.status = runFatal := by decide

theorem witness_AckReturnsFromHeldOnly :
    (awaiting .ack).host = [.ack] ∧ statusRun (awaiting .ack).status = runReady ∧
    statusRun ({ held with host := [.ack] } : State).status = runHeld ∧
    statusRun ({ fatal with host := [.ack] } : State).status = runFatal := by decide

theorem witness_ResetLeavesResetValues :
    (awaiting .reset).host = [.reset] ∧ ({ fatal with host := [.reset] } : State).host = [.reset] := by decide

theorem witness_HostReadsOnlyAnswer :
    (awaiting (.readF 15)).host = [.readF 15] ∧ (awaiting (.readCR .cap)).host = [.readCR .cap] ∧
    (awaiting (.readBuf 0xFFFF)).host = [.readBuf 0xFFFF] ∧
    ({ fatal with host := [.readBuf 0] } : State).host = [.readBuf 0] := by decide

/-- The first and the last address of BUF. -/
theorem witness_HostWriteStoresOneByte :
    (awaiting (.writeBuf 0x0000 0x2A)).host = [.writeBuf 0x0000 0x2A] ∧
    (awaiting (.writeBuf 0xFFFF 0x2A)).host = [.writeBuf 0xFFFF 0x2A] := by decide

theorem witness_AckUndoesFailedCommand :
    State.reset.Good ∧ statusRun State.reset.status = runReady ∧ exec (.crw .cap 5) State.reset = .next held ∧
    statusRun held.status = runHeld := ⟨reset_good, by decide, rfl, by decide⟩

theorem witness_FatalOnlyFromDivision :
    statusRun State.reset.status = runReady ∧ exec (.gfdiv 1 0 2) State.reset = .next fatal ∧
    statusRun fatal.status = runFatal := ⟨by decide, rfl, by decide⟩

/-- In FATAL an ACK, in HELD a host write. -/
theorem witness_PendingErrorStays :
    (∃ t, step { fatal with host := [.ack] } = .next t) ∧ statusRun fatal.status = runFatal ∧
    (∃ t, step { held with host := [.writeBuf 0 1] } = .next t) ∧ statusRun held.status = runHeld ∧
    HostAction.writeBuf 0 1 ≠ .reset ∧ HostAction.writeBuf 0 1 ≠ .ack ∧ HostAction.ack ≠ .reset :=
  ⟨⟨_, rfl⟩, by decide, ⟨_, rfl⟩, by decide, by decide, by decide, by decide⟩

theorem witness_GoodKeptByStep : State.reset.Good ∧ step State.reset = .next State.reset := ⟨reset_good, rfl⟩

/-- With no error pending and with one. -/
theorem witness_ReadyIffNoError :
    State.reset.Good ∧ statusErr State.reset.status = 0 ∧ held.Good ∧ statusErr held.status ≠ 0 :=
  ⟨reset_good, by decide, held_good, by decide⟩

/-- The meanings that write no F register and one that writes another. -/
theorem witness_OnlyDestinationFChanges :
    (∃ t, exec (.gfadd 0 1 2) State.reset = .next t) ∧ destination (.gfadd 0 1 2) ≠ some 15 ∧
    (∃ t, exec .combine State.reset = .next t) ∧ destination .combine ≠ some 0 :=
  ⟨⟨_, rfl⟩, by decide, ⟨_, rfl⟩, by decide⟩

/-- SECBASE and NSAMP, the ends of the writable registers, POLYLEN and SECLEN under CRW to another register, and CAP
under CRW to itself. -/
theorem witness_OnlyTheseWriteControlRegisters :
    ((∃ t, exec (.crw .parts 7) State.reset = .next t) ∧
      (∀ n ∈ [CReg.secbase, .nsamp, .polylen, .seclen], n.writable = true ∧ ∀ v, Instr.crw .parts 7 ≠ .crw n v) ∧
      (∀ fa deg, Instr.crw .parts 7 ≠ .mkpoly fa deg) ∧ Instr.crw .parts 7 ≠ .combine) ∧
    (∃ t, exec (.crw .cap 5) State.reset = .next t) ∧ ¬ CReg.cap ≠ .cap ∧
      (∀ fa deg, Instr.crw .cap 5 ≠ .mkpoly fa deg) ∧ Instr.crw .cap 5 ≠ .combine := by
  refine ⟨⟨⟨_, rfl⟩, ?_, by simp, by simp⟩, ⟨_, rfl⟩, by simp, by simp, by simp⟩
  simp; decide

theorem witness_OnlyTheseWriteBuf :
    (∃ t, exec (.ldb 0 0xFFFF) State.reset = .next t) ∧ (∀ fs a, Instr.ldb 0 0xFFFF ≠ .stb fs a) ∧
    (∀ fa deg, Instr.ldb 0 0xFFFF ≠ .mkpoly fa deg) ∧ Instr.ldb 0 0xFFFF ≠ .split ∧ Instr.ldb 0 0xFFFF ≠ .combine := by
  refine ⟨⟨_, rfl⟩, ?_, ?_, ?_, ?_⟩ <;> simp

theorem witness_OnlyMkpolyAndSplitDraw :
    (∃ t, exec .combine State.reset = .next t) ∧ (∀ fa deg, Instr.combine ≠ .mkpoly fa deg) ∧ Instr.combine ≠ .split := by
  refine ⟨⟨_, rfl⟩, ?_, ?_⟩ <;> simp

/-- The bytes 01 and FF are nonzero, 0 and 254 are indices of EXP. -/
theorem witness_TablesAreInverse : (0x01 : Byte) ≠ 0 ∧ (0xFF : Byte) ≠ 0 ∧ 0 < 255 ∧ 254 < 255 := by decide

theorem witness_FieldIdentities : (0x83 : Byte) ≠ 0 := by decide

/-- A zero product, and nonzero operands. -/
theorem witness_FieldLaws : mult standardTables 0x00 0x2A = 0x00 ∧ (0x2A : Byte) ≠ 0 ∧ (0x53 : Byte) ≠ 0 := by
  decide +kernel

theorem witness_GfmulResult : (twoF 0x57 0x83).TablesBuilt := rfl

theorem witness_GfdivResult : (twoF 0xC1 0x83).TablesBuilt ∧ (twoF 0xC1 0x83).getF 1 ≠ 0x00 := ⟨rfl, by decide⟩

theorem witness_GfdivByZeroIsFatal : (twoF 0x2A 0x00).getF 1 = 0x00 := by decide

/-- The first and the last writable register. -/
theorem witness_CrwResult :
    (CReg.secbase ≠ .status ∧ CReg.secbase ≠ .errcmdl ∧ CReg.secbase ≠ .errcmdh ∧ CReg.secbase ≠ .cap) ∧
    (CReg.nsamp ≠ .status ∧ CReg.nsamp ≠ .errcmdl ∧ CReg.nsamp ≠ .errcmdh ∧ CReg.nsamp ≠ .cap) := by decide

/-- The four read-only registers; no writable one is among them. -/
theorem witness_CrwReadOnlyRaises :
    ∀ n : CReg, n ∈ [CReg.status, .errcmdl, .errcmdh, .cap] →
      (n = .status ∨ n = .errcmdl ∨ n = .errcmdh ∨ n = .cap) ∧ n.writable = false := by
  intro n hn; cases n <;> revert hn <;> decide

/-- The first and the last address of a 2-byte access. -/
theorem witness_TwoByteAccess : 0 + 2 ≤ 65536 ∧ 65534 + 2 ≤ 65536 := by decide

/-- Degree 1 at address 0 and degree 255 at the end of BUF (V62), with draws given. -/
theorem witness_MkpolyResult :
    ((1 : Byte) ≠ 0 ∧ State.reset.polybase.toNat + (1 : Byte).toNat + 1 ≤ 65536) ∧
    ((0xFF : Byte) ≠ 0 ∧ ({ State.reset with polybase := 0xFF00 } : State).polybase.toNat + (0xFF : Byte).toNat + 1 ≤ 65536) ∧
    (drawing [0x52, 0xC9] 1).coeffs = [0x52, 0xC9] ++ [] ∧ [0x52, 0xC9].length = (2 : Byte).toNat := by
  refine ⟨by decide, by decide, rfl, by decide⟩

/-- Degree 0 (V60), and degree 255 one byte past the end (V61). -/
theorem witness_MkpolyRefusals :
    (0 : Byte) = 0 ∧
    ((0xFF : Byte) ≠ 0 ∧ 65536 < ({ State.reset with polybase := 0xFF01 } : State).polybase.toNat + (0xFF : Byte).toNat + 1) := by
  decide

/-- One coefficient at the last address (V65), and three. -/
theorem witness_EvalResult :
    (({ State.reset with polylen := 1, polybase := 0xFFFF } : State).TablesBuilt ∧
      1 ≤ ({ State.reset with polylen := 1, polybase := 0xFFFF } : State).polylen.toNat ∧
      ({ State.reset with polylen := 1, polybase := 0xFFFF } : State).polybase.toNat +
        ({ State.reset with polylen := 1, polybase := 0xFFFF } : State).polylen.toNat ≤ 65536) ∧
    ((polyAt 0x02).TablesBuilt ∧ 1 ≤ (polyAt 0x02).polylen.toNat) := by
  refine ⟨⟨rfl, by decide, by decide⟩, rfl, by decide⟩

/-- V63 and V64. -/
theorem witness_EvalRefusals :
    State.reset.polylen = 0 ∧
    (({ State.reset with polylen := 2, polybase := 0xFFFF } : State).polylen ≠ 0 ∧
      65536 < ({ State.reset with polylen := 2, polybase := 0xFFFF } : State).polybase.toNat +
        ({ State.reset with polylen := 2, polybase := 0xFFFF } : State).polylen.toNat) := by decide

/-- V66's samples, and a polynomial of three coefficients through them. -/
theorem witness_InterpResult :
    (samples [0x01, 0x03, 0x05] [0xB3, 0x10, 0xF0]).TablesBuilt ∧
    2 ≤ (samples [0x01, 0x03, 0x05] [0xB3, 0x10, 0xF0]).nsamp.toNat ∧
    (samples [0x01, 0x03, 0x05] [0xB3, 0x10, 0xF0]).xsbase.toNat + 3 ≤ 65536 ∧
    (samples [0x01, 0x03, 0x05] [0xB3, 0x10, 0xF0]).ysbase.toNat + 3 ≤ 65536 ∧
    ((samples [0x01, 0x03, 0x05] [0xB3, 0x10, 0xF0]).readBytes 0x0200 3).Nodup ∧
    ∀ k < 3, polyValue [0x2A, 0x53, 0xCA] ((samples [0x01, 0x03, 0x05] [0xB3, 0x10, 0xF0]).bufByte (0x0200 + k)) =
      (samples [0x01, 0x03, 0x05] [0xB3, 0x10, 0xF0]).bufByte (0x0210 + k) := by
  refine ⟨rfl, by decide, by decide, by decide, by decide, by decide +kernel⟩

/-- V84, the least number of samples. -/
theorem witness_InterpDuplicateIsFatal :
    2 ≤ (samples [0x07, 0x07] [0x01, 0x02]).nsamp.toNat ∧
    (samples [0x07, 0x07] [0x01, 0x02]).xsbase.toNat + 2 ≤ 65536 ∧
    (samples [0x07, 0x07] [0x01, 0x02]).ysbase.toNat + 2 ≤ 65536 ∧
    0 < 1 ∧ 1 < (samples [0x07, 0x07] [0x01, 0x02]).nsamp.toNat ∧
    (samples [0x07, 0x07] [0x01, 0x02]).bufByte (0x0200 + 0) = (samples [0x07, 0x07] [0x01, 0x02]).bufByte (0x0200 + 1) := by
  decide

/-- V85 and V86. -/
theorem witness_InterpRefusals :
    ({ State.reset with nsamp := 1 } : State).nsamp.toNat < 2 ∧
    (2 ≤ ({ State.reset with nsamp := 2, ysbase := 0xFFFF } : State).nsamp.toNat ∧
      65536 < ({ State.reset with nsamp := 2, ysbase := 0xFFFF } : State).ysbase.toNat + 2) ∧
    65536 < ({ State.reset with nsamp := 2, xsbase := 0xFFFF } : State).xsbase.toNat + 2 := by decide

theorem splitAt_accepted : (splitAt 0xFFFC).SplitAccepted :=
  ⟨⟨by decide, by decide, by decide, by decide, by decide⟩, by decide, by decide, .inl (by decide)⟩

/-- The shares end at the last byte of BUF (V103). -/
theorem witness_SplitWritesShares : (splitAt 0xFFFC).TablesBuilt ∧ (splitAt 0xFFFC).SplitAccepted :=
  ⟨rfl, splitAt_accepted⟩

/-- V103 with V76's draws: all the draws that SPLIT takes are given. -/
theorem witness_SplitTakesItsDraws :
    (splitAt 0xFFFC).TablesBuilt ∧ (splitAt 0xFFFC).SplitAccepted ∧
    (splitAt 0xFFFC).rng.perms = [PermDraw.ofPerm 1] ∧ (splitAt 0xFFFC).rng.coeffs = [0x00] ++ [] ∧
    [(0x00 : Fin 255)].length = (splitAt 0xFFFC).seclen.toNat * ((splitAt 0xFFFC).thresh.toNat - 1) ∧
    ∃ t, nextOf (exec .split (splitAt 0xFFFC)) = some t :=
  ⟨rfl, splitAt_accepted, rfl, rfl, by decide, Option.isSome_iff_exists.mp (by decide +kernel)⟩

/-- V90, V92, V93, V94 and V95, in the order of the clauses. -/
theorem witness_SplitValidationOrder :
    (splitWith 1 5 1).thresh.toNat < 2 ∧
    255 < (splitWith 256 300 1).thresh.toNat ∧
    (2 ≤ (splitWith 2 1 1).thresh.toNat ∧ (splitWith 2 1 1).thresh.toNat ≤ 255 ∧
      (splitWith 2 1 1).parts.toNat < (splitWith 2 1 1).thresh.toNat) ∧
    (2 ≤ (splitWith 255 256 1).thresh.toNat ∧ (splitWith 255 256 1).thresh.toNat ≤ 255 ∧
      (splitWith 255 256 1).thresh.toNat ≤ (splitWith 255 256 1).parts.toNat ∧ 255 < (splitWith 255 256 1).parts.toNat) ∧
    (2 ≤ (splitWith 2 255 0).thresh.toNat ∧ (splitWith 2 255 0).thresh.toNat ≤ (splitWith 2 255 0).parts.toNat ∧
      (splitWith 2 255 0).parts.toNat ≤ 255 ∧ (splitWith 2 255 0).seclen.toNat = 0) := by decide

theorem splitAt_valid (b : Word) : (splitAt b).SplitValid := by
  constructor <;> simp [splitAt]

/-- V102 (one byte too many) and V104 (on the secret). -/
theorem witness_SplitRegionChecks :
    ((splitAt 0xFFFD).SplitValid ∧
      65536 < (splitAt 0xFFFD).shrbase.toNat + (splitAt 0xFFFD).parts.toNat * ((splitAt 0xFFFD).seclen.toNat + 1)) ∧
    ((splitAt 0x0000).SplitValid ∧
      (splitAt 0x0000).secbase.toNat + (splitAt 0x0000).seclen.toNat ≤ 65536 ∧
      (splitAt 0x0000).shrbase.toNat + (splitAt 0x0000).parts.toNat * ((splitAt 0x0000).seclen.toNat + 1) ≤ 65536 ∧
      ¬ Apart (splitAt 0x0000).secbase.toNat (splitAt 0x0000).seclen.toNat (splitAt 0x0000).shrbase.toNat
        ((splitAt 0x0000).parts.toNat * ((splitAt 0x0000).seclen.toNat + 1))) :=
  ⟨⟨splitAt_valid _, by decide⟩, splitAt_valid _, by decide, by decide, by unfold Apart; decide⟩

theorem combineOf_valid (shares : List Byte) (secbase : Word)
    (h : ∀ k < 2, ((combineOf shares secbase).descriptor k).len = 2) : (combineOf shares secbase).CombineValid 2 := by
  have hn : (combineOf shares secbase).nshares.toNat = 2 := by
    simp [combineOf]
  have hd : (combineOf shares secbase).descbase.toNat = 0x40 := by
    simp [combineOf]
  exact ⟨by omega, by omega, by omega, fun k hk => h k (by omega)⟩

/-- V109: the output right after the last share. -/
theorem adjacent_regions : (combineOf [0xB3, 0x01, 0x89, 0x02] 0x0014).CombineRegions 2 := by
  refine ⟨combineOf_valid _ _ (by decide), ?_, ?_, ?_, ?_⟩ <;> (try unfold Apart) <;> decide

theorem witness_CombineWritesSecret :
    (combineOf [0xB3, 0x01, 0x89, 0x02] 0x0014).TablesBuilt ∧
    (combineOf [0xB3, 0x01, 0x89, 0x02] 0x0014).CombineAccepted 2 :=
  ⟨rfl, adjacent_regions, by decide⟩

/-- COMBINE whose second share starts at the last byte of BUF (V106). -/
def farShare : State := (combineOf [] 0x0080).writeBytes 0x0044 [0xFF, 0xFF]

theorem farShare_valid : farShare.CombineValid 2 ∧ 1 < farShare.nshares.toNat ∧
    65536 < (farShare.descriptor 1).addr + 2 := by
  refine ⟨⟨by decide, by decide, by decide, by decide⟩, by decide, by decide⟩

/-- V97, V105, V98, V99, V106 and V107, in the order of the clauses. -/
theorem witness_CombineCheckOrder :
    ({ State.reset with nshares := 1 } : State).nshares.toNat < 2 ∧
    (2 ≤ ({ State.reset with nshares := 2, descbase := 0xFFFA } : State).nshares.toNat ∧
      65536 < ({ State.reset with nshares := 2, descbase := 0xFFFA } : State).descbase.toNat +
        4 * ({ State.reset with nshares := 2, descbase := 0xFFFA } : State).nshares.toNat) ∧
    (((combineOf [] 0x0080).writeBytes 0x0042 [0x01]).descriptor 0).len < 2 ∧
    (2 ≤ (((combineOf [] 0x0080).writeBytes 0x0046 [0x03]).descriptor 0).len ∧
      (((combineOf [] 0x0080).writeBytes 0x0046 [0x03]).descriptor 1).len ≠
        (((combineOf [] 0x0080).writeBytes 0x0046 [0x03]).descriptor 0).len) ∧
    (farShare.CombineValid 2 ∧ 1 < farShare.nshares.toNat ∧ 65536 < (farShare.descriptor 1).addr + 2) ∧
    ((combineOf [] 0x0011).CombineValid 2 ∧
      (∀ k < (combineOf [] 0x0011).nshares.toNat, ((combineOf [] 0x0011).descriptor k).addr + 2 ≤ 65536) ∧
      (combineOf [] 0x0011).secbase.toNat + (2 - 1) ≤ 65536 ∧
      ¬ Apart (combineOf [] 0x0011).secbase.toNat (2 - 1) ((combineOf [] 0x0011).descriptor 0).addr 2) := by
  refine ⟨by decide, by decide, by decide, by decide, farShare_valid, combineOf_valid _ _ (by decide), by decide, by decide, ?_⟩
  unfold Apart; decide

/-- P6 line 8: the second descriptor (0x0012, 2) is the bytes 12 00 02 00 at 0x0044. -/
theorem test_descriptor : (combineOf [] 0x0080).readBytes 0x0044 4 = [0x12, 0x00, 0x02, 0x00] ∧
    (combineOf [] 0x0080).descriptor 1 = ⟨0x0012, 2⟩ := by decide

/-- V101: the same coordinate, different y-values. -/
theorem witness_CombineDuplicateRaises :
    (combineOf [0x2A, 0x05, 0x99, 0x05] 0x0014).CombineRegions 2 ∧ 0 < 1 ∧
    1 < (combineOf [0x2A, 0x05, 0x99, 0x05] 0x0014).nshares.toNat ∧
    (combineOf [0x2A, 0x05, 0x99, 0x05] 0x0014).shareByte 0 (2 - 1) =
      (combineOf [0x2A, 0x05, 0x99, 0x05] 0x0014).shareByte 1 (2 - 1) := by
  refine ⟨⟨combineOf_valid _ _ (by decide), ?_, ?_, ?_, ?_⟩, by decide, by decide, by decide⟩ <;>
    (try unfold Apart) <;> decide

/-- V76. -/
theorem witness_ShareShape :
    (split standardTables [0x2A] 2 2 (drawing [0x00] 1)).toOption.map (·.1) = some [[0x2B, 0x01], [0x28, 0x02]] := by
  decide +kernel

/-- V76, the two shares in the other order. -/
theorem witness_CombineOfSplitIsSecret :
    (split standardTables [0x2A] 2 2 (drawing [0x00] 1)).toOption.map (·.1) = some [[0x2B, 0x01], [0x28, 0x02]] ∧
    [[0x28, 0x02], [0x2B, 0x01]].Nodup ∧
    (∀ sh ∈ [[0x28, 0x02], [0x2B, 0x01]], sh ∈ [[0x2B, 0x01], [0x28, 0x02]]) ∧
    2 ≤ [[0x28, 0x02], [0x2B, 0x01]].length := by
  refine ⟨witness_ShareShape, by decide, by decide, by decide⟩

/-- V103's shares at 0x0010 and V76's descriptors in the other order. -/
theorem witness_SplitThenCombineRestoresSecret :
    (splitAt 0x0010).TablesBuilt ∧ (splitAt 0x0010).SplitAccepted ∧
    (combineOf [0x2B, 0x01, 0x28, 0x02] 0x0080).TablesBuilt ∧
    (combineOf [0x2B, 0x01, 0x28, 0x02] 0x0080).CombineRegions ((splitAt 0x0010).seclen.toNat + 1) ∧
    (splitAt 0x0010).thresh.toNat ≤ (combineOf [0x2B, 0x01, 0x28, 0x02] 0x0080).nshares.toNat ∧
    (∀ k < 2, id k < (splitAt 0x0010).parts.toNat ∧
      ((combineOf [0x2B, 0x01, 0x28, 0x02] 0x0080).descriptor k).addr =
        (splitAt 0x0010).shrbase.toNat + id k * ((splitAt 0x0010).seclen.toNat + 1)) ∧
    (∀ j < 2, ∀ k < 2, id j = id k → j = k) ∧
    bytesAfter .split (splitAt 0x0010) 0x0010 4 =
      some ((combineOf [0x2B, 0x01, 0x28, 0x02] 0x0080).readBytes 0x0010 4) := by
  refine ⟨rfl, ⟨splitAt_valid _, by decide, by decide, .inl (by decide)⟩, rfl,
    ⟨combineOf_valid _ _ (by decide), ?_, ?_, ?_, ?_⟩, by decide, by decide, by decide, by decide +kernel⟩ <;>
    (try unfold Apart) <;> decide

/-- V73: the same three shares in two orders. -/
theorem witness_CombineIgnoresOrder :
    List.Perm [[0xB3, 0x01], [0x89, 0x02], [0x10, 0x03]] [[0x10, 0x03], [0xB3, 0x01], [0x89, 0x02]] ∧
    (combine standardTables [[0xB3, 0x01], [0x89, 0x02], [0x10, 0x03]]).toOption = some [0x2A] := by
  refine ⟨by decide, by decide +kernel⟩

/-- V80. -/
theorem witness_ZeroCoordinateShareIsSecret :
    [0x2A] ++ [0x00] ∈ [[0x2A, 0x00], [0x99, (0x07 : Byte)]] ∧
    (combine standardTables [[0x2A, 0x00], [0x99, 0x07]]).toOption = some [0x2A] := by
  refine ⟨by decide, by decide +kernel⟩

end Sys2Proof.Machine.Tests
end

section
/-! PROOFS. Layer: what a command writes, in one lemma, and what each kind of write leaves of F, the control registers
and BUF. -/

namespace Sys2Proof.Machine

/-! ### What a register read sees of an update -/

theorem State.getF_congr {s t : State} (h : t.f = s.f) (r : FReg) : t.getF r = s.getF r := by
  simp only [State.getF, h]

@[simp] theorem State.readCR_setF (s : State) (i : FReg) (v : Byte) (n : CReg) :
    (s.setF i v).readCR n = s.readCR n := by cases n <;> rfl

@[simp] theorem State.readCR_setRng (s : State) (r : RandomSource) (n : CReg) :
    (s.setRng r).readCR n = s.readCR n := by cases n <;> rfl

@[simp] theorem State.readCR_setTables (s : State) (T : Tables) (n : CReg) :
    (s.setTables T).readCR n = s.readCR n := by cases n <;> rfl

@[simp] theorem State.readCR_writeByte (s : State) (a : Nat) (v : Byte) (n : CReg) :
    (s.writeByte a v).readCR n = s.readCR n := by
  rw [State.writeByte_eq]; cases n <;> rfl

@[simp] theorem State.readCR_writeBytes (s : State) (a : Nat) (vs : List Byte) (n : CReg) :
    (s.writeBytes a vs).readCR n = s.readCR n := by
  rw [State.writeBytes_eq]; cases n <;> rfl

/-- Error entry writes CR[0] to CR[2] only (R168). -/
theorem State.readCR_raise (s : State) (w : Command) (c : Cause) {n : CReg}
    (h : n.writable = true ∨ n = .cap) : (s.raise w c).readCR n = s.readCR n := by
  cases n
  case status | errcmdl | errcmdh => exact absurd h (by decide)
  all_goals rfl

theorem CReg.writable_of_ne {n : CReg} (hs : n ≠ .status) (hl : n ≠ .errcmdl) (hh : n ≠ .errcmdh)
    (hc : n ≠ .cap) : n.writable = true := by
  cases n
  case status | errcmdl | errcmdh | cap => contradiction
  all_goals rfl

/-! ### What a command writes -/

/-- What a command leaves, by the kind of state it writes: the commands with a destination write that F register, the
others their own piece of state, and a raised error only STATUS and ERRCMD (R167). -/
inductive Wrote (s : State) : Instr → State → Prop
  | destination {i : Instr} {fd : FReg} (h : destination i = some fd) (v : Byte) : Wrote s i (s.setF fd v)
  | tbuild : Wrote s .tbuild (s.setTables standardTables)
  | stb (fs : FReg) (addr : Word) : Wrote s (.stb fs addr) (s.writeByte addr.toNat (s.getF fs))
  | crw (cr : CReg) (v : Word) : Wrote s (.crw cr v) (s.writeCR cr v)
  | mkpoly (fa : FReg) (degree : Byte) (r : RandomSource) (vs : List Byte) (len : Word) :
    Wrote s (.mkpoly fa degree) (((s.setRng r).writeBytes s.polybase.toNat vs).writeCR .polylen len)
  | split (r : RandomSource) (vs : List Byte) : Wrote s .split ((s.setRng r).writeBytes s.shrbase.toNat vs)
  | combine (vs : List Byte) (len : Word) :
    Wrote s .combine ((s.writeBytes s.secbase.toNat vs).writeCR .seclen len)
  | error (i : Instr) (c : Cause) : Wrote s i (s.raise (encode i) c)

/-- A completed command with a destination wrote that F register (R15). -/
theorem Completed.eq_setF {i : Instr} {s t : State} {fd : FReg} (h : Completed i s t)
    (hd : destination i = some fd) : ∃ v, t = s.setF fd v := by
  cases i
  case gfdiv =>
    obtain ⟨q, -, rfl⟩ := h
    cases hd; exact ⟨q, rfl⟩
  case eval | interp =>
    obtain ⟨v, rfl⟩ := h
    cases hd; exact ⟨v, rfl⟩
  case gfadd | gfmul | ldi | ldb => cases hd; exact ⟨_, h⟩
  case tbuild | stb | crw | mkpoly | split | combine => cases hd

theorem Completed.wrote {i : Instr} {s t : State} (h : Completed i s t) : Wrote s i t := by
  cases hd : destination i with
  | some fd =>
    obtain ⟨v, rfl⟩ := h.eq_setF hd
    exact .destination hd v
  | none =>
    cases i
    case tbuild => cases h; exact .tbuild
    case stb => cases h; exact .stb _ _
    case crw =>
      obtain ⟨-, rfl⟩ := h
      exact .crw _ _
    case mkpoly =>
      obtain ⟨-, -, rfl⟩ := h
      exact .mkpoly _ _ _ _ _
    case split =>
      obtain ⟨r, vs, rfl⟩ := h
      exact .split r vs
    case combine =>
      obtain ⟨vs, len, rfl⟩ := h
      exact .combine vs len
    case gfadd | gfmul | gfdiv | ldi | ldb | eval | interp => cases hd

/-- Every next state of a command is one of these writes. -/
theorem exec_wrote {i : Instr} {s t : State} (h : exec i s = .next t) : Wrote s i t := by
  rcases exec_next h with hc | ⟨c, -, rfl⟩
  · exact hc.wrote
  · exact .error i c

end Sys2Proof.Machine
end

section
/-! PROOFS. Layer: the fields of STATUS (R18, R160 to R164). -/

namespace Sys2Proof.Machine

/-! ### The fields of a word put together from its fields -/

@[simp] theorem statusErr_statusWord (run : BitVec 2) (sub err : BitVec 4) :
    statusErr (statusWord run sub err) = err := BitVec.extractLsb'_append_eq_right

/-- The three fields above ERR, read in the word without ERR. -/
theorem extractLsb'_statusWord (run : BitVec 2) (sub err : BitVec 4) {start : Nat} (len : Nat) (h : 4 ≤ start) :
    (statusWord run sub err).extractLsb' start len = ((0 : BitVec 6) ++ run ++ sub).extractLsb' (start - 4) len :=
  BitVec.extractLsb'_append_eq_of_le h

@[simp] theorem statusSub_statusWord (run : BitVec 2) (sub err : BitVec 4) :
    statusSub (statusWord run sub err) = sub := by
  rw [statusSub, extractLsb'_statusWord _ _ _ _ (by decide)]
  exact BitVec.extractLsb'_append_eq_right

@[simp] theorem statusRun_statusWord (run : BitVec 2) (sub err : BitVec 4) :
    statusRun (statusWord run sub err) = run := by
  rw [statusRun, extractLsb'_statusWord _ _ _ _ (by decide), BitVec.extractLsb'_append_eq_of_le (by decide)]
  exact BitVec.extractLsb'_append_eq_right

@[simp] theorem statusZero_statusWord (run : BitVec 2) (sub err : BitVec 4) :
    statusZero (statusWord run sub err) = 0 := by
  rw [statusZero, extractLsb'_statusWord _ _ _ _ (by decide), BitVec.extractLsb'_append_eq_of_le (by decide)]
  exact BitVec.extractLsb'_append_eq_left

/-! ### The word of an error -/

@[simp] theorem statusErr_status (c : Cause) : statusErr c.status = c.err := statusErr_statusWord _ _ _

@[simp] theorem statusSub_status (c : Cause) : statusSub c.status = c.sub := statusSub_statusWord _ _ _

@[simp] theorem statusRun_status (c : Cause) : statusRun c.status = c.run := statusRun_statusWord _ _ _

@[simp] theorem statusZero_status (c : Cause) : statusZero c.status = 0 := statusZero_statusWord _ _ _

theorem Cause.err_ne_zero (c : Cause) : c.err ≠ 0 := by
  cases c <;> simp [Cause.err]

theorem Cause.run_ne_ready (c : Cause) : c.run ≠ runReady := by
  cases c <;> simp [Cause.run, runReady, runHeld, runFatal]

end Sys2Proof.Machine
end

section
/-! PROOFS. The invariant of a command boundary (R10, R18, R19, R22): reset meets it, and every step keeps it. -/

namespace Sys2Proof.Machine

/-! ### Each operation keeps the invariant -/

/-- The invariant speaks of the tables, STATUS, ERRCMD and BUF only. -/
theorem State.Good.congr {s t : State} (h : s.Good) (htables : t.tables = s.tables) (hstatus : t.status = s.status)
    (hlow : t.errcmdl = s.errcmdl) (hhigh : t.errcmdh = s.errcmdh) (hbuf : Memory.wf t.buf) : t.Good where
  tablesBuilt := htables.trans h.tablesBuilt
  statusLegal := by simpa only [State.StatusLegal, hstatus] using h.statusLegal
  errcmdClear := by simpa only [State.ErrcmdClear, hstatus, hlow, hhigh] using h.errcmdClear
  bufWf := hbuf

/-- STATUS and ERRCMD read 0, as after reset and after ACK (R171, R190). -/
theorem State.Good.of_cleared {s : State} (htables : s.TablesBuilt) (hstatus : s.status = 0) (hlow : s.errcmdl = 0)
    (hhigh : s.errcmdh = 0) (hbuf : Memory.wf s.buf) : s.Good :=
  ⟨htables, .inl hstatus, fun _ => ⟨hlow, hhigh⟩, hbuf⟩

theorem State.Good.raise {s : State} (h : s.Good) (w : Command) (c : Cause) : (s.raise w c).Good where
  tablesBuilt := h.tablesBuilt
  statusLegal := .inr ⟨c, rfl⟩
  errcmdClear := fun he => absurd ((statusErr_status c).symm.trans he) c.err_ne_zero
  bufWf := h.bufWf

theorem State.Good.acknowledge {s : State} (h : s.Good) : s.acknowledge.Good := by
  unfold State.acknowledge
  split
  · exact .of_cleared h.tablesBuilt rfl rfl rfl h.bufWf
  · exact h

theorem State.reset_good : State.reset.Good :=
  .of_cleared rfl rfl rfl rfl ⟨List.Pairwise.nil, fun _ h => absurd h List.not_mem_nil⟩

theorem State.resetUnit_good (s : State) : s.resetUnit.Good :=
  State.reset_good.congr rfl rfl rfl rfl State.reset_good.bufWf

theorem State.Good.writeByte {s : State} (h : s.Good) (a : Nat) (v : Byte) : (s.writeByte a v).Good :=
  h.congr (by simp) (by simp) (by simp) (by simp) (State.writeByte_wf a v h.bufWf)

theorem State.Good.writeBytes {s : State} (h : s.Good) (a : Nat) (vs : List Byte) : (s.writeBytes a vs).Good :=
  h.congr (by simp) (by simp) (by simp) (by simp) (State.writeBytes_wf a vs h.bufWf)

theorem State.Good.writeCR {s : State} (h : s.Good) (n : CReg) (v : Word) : (s.writeCR n v).Good :=
  h.congr (by simp) (by simp) (by simp) (by simp) (by simpa using h.bufWf)

theorem State.Good.setRng {s : State} (h : s.Good) (r : RandomSource) : (s.setRng r).Good :=
  h.congr rfl rfl rfl rfl h.bufWf

theorem State.Good.setF {s : State} (h : s.Good) (i : FReg) (v : Byte) : (s.setF i v).Good :=
  h.congr rfl rfl rfl rfl h.bufWf

theorem State.Good.setTables_standard {s : State} (h : s.Good) : (s.setTables standardTables).Good :=
  h.congr h.tablesBuilt.symm rfl rfl rfl h.bufWf

theorem State.Good.answer {s : State} (h : s.Good) (r : Reply) : (s.answer r).Good :=
  h.congr rfl rfl rfl rfl h.bufWf

/-! ### Commands, host actions and steps keep the invariant -/

theorem exec_keeps_good {i : Instr} {s t : State} (h : s.Good) (ht : exec i s = .next t) : t.Good := by
  cases exec_wrote ht with
  | destination _ v => exact h.setF _ v
  | tbuild => exact h.setTables_standard
  | stb => exact h.writeByte _ _
  | crw cr v => exact h.writeCR cr v
  | mkpoly _ _ r vs len => exact ((h.setRng r).writeBytes _ vs).writeCR _ len
  | split r vs => exact (h.setRng r).writeBytes _ vs
  | combine vs len => exact (h.writeBytes _ vs).writeCR _ len
  | error _ c => exact h.raise _ c

/-- A word the host presents is dropped, raises a decode error or is executed (R65, R172). -/
theorem presentWord_next {w : Command} {s t : State} (h : presentWord w s = .next t) :
    t = s ∨ (∃ e, t = s.raise w (decodeCause e)) ∨ ∃ i, decode w = .ok i ∧ exec i s = .next t := by
  unfold presentWord executeWord at h
  split at h
  · split at h
    · exact .inr (.inr ⟨_, ‹_›, h⟩)
    · cases h; exact .inr (.inl ⟨_, rfl⟩)
  · cases h; exact .inl rfl

theorem presentWord_keeps_good {w : Command} {s t : State} (h : s.Good) (ht : presentWord w s = .next t) :
    t.Good := by
  obtain rfl | ⟨e, rfl⟩ | ⟨i, -, hi⟩ := presentWord_next ht
  · exact h
  · exact h.raise w _
  · exact exec_keeps_good h hi

theorem hostAction_keeps_good {act : HostAction} {s t : State} (h : s.Good) (ht : hostAction act s = .next t) :
    t.Good := by
  cases act with
  | issue w => exact presentWord_keeps_good h ht
  | reset => cases ht; exact s.resetUnit_good
  | ack => cases ht; exact h.acknowledge
  | readF | readCR | readBuf => cases ht; exact h.answer _
  | writeBuf a v => cases ht; exact h.writeByte _ v

/-- Settles O22: every host action and every command keeps the invariant. -/
theorem goodKeptByStep : Obligations.GoodKeptByStep := by
  unfold Obligations.GoodKeptByStep
  intro s t h ht
  cases hs : s.host with
  | nil => rw [step_idle hs] at ht; cases ht; exact h
  | cons act rest =>
    rw [step_action hs] at ht
    have hrest : ({ s with host := rest } : State).Good := h.congr rfl rfl rfl rfl h.bufWf
    exact hostAction_keeps_good hrest ht

/-- Settles O21: reset builds the tables and clears STATUS, ERRCMD and BUF. -/
theorem goodAtReset : Obligations.GoodAtReset := State.reset_good

/-- Settles O23: STATUS is 0 or the word of a cause, and a cause has a class and a run state other than READY. -/
theorem readyIffNoError : Obligations.ReadyIffNoError := by
  unfold Obligations.ReadyIffNoError
  intro s h
  obtain h0 | ⟨c, hc⟩ := h.statusLegal
  · rw [h0]; decide
  · rw [hc, statusRun_status, statusErr_status]
    exact ⟨iff_of_false c.run_ne_ready c.err_ne_zero, statusZero_status c, fun he => absurd he c.err_ne_zero⟩

/-- Settles O16: each word is put together from the codes of its cause (R18, R160 to R164). -/
theorem statusWordsOfErrors : Obligations.StatusWordsOfErrors := by
  unfold Obligations.StatusWordsOfErrors
  decide

end Sys2Proof.Machine
end

section
/-! PROOFS. What changes each piece of the state: F, the control registers, BUF and the reply (R15, R17, R20, R22,
R182). -/

namespace Sys2Proof.Machine

/-- Settles O24: only a command with a destination writes F, and there only (R15). -/
theorem onlyDestinationFChanges : Obligations.OnlyDestinationFChanges := by
  unfold Obligations.OnlyDestinationFChanges
  intro i s t r ht hr
  cases exec_wrote ht with
  | destination hd v => exact State.getF_setF_other s v fun e => hr (e ▸ hd)
  | tbuild | stb | crw | mkpoly | split | combine | error => exact State.getF_congr (by simp) r

/-- Settles O25: CRW writes its register, MKPOLY POLYLEN, COMBINE SECLEN, and error entry none of these (R17, R20). -/
theorem onlyTheseWriteControlRegisters : Obligations.OnlyTheseWriteControlRegisters := by
  unfold Obligations.OnlyTheseWriteControlRegisters
  intro i s t n ht hn hcrw hpoly hsec
  cases exec_wrote ht with
  | destination | tbuild | stb | split => simp
  | crw cr v =>
    by_cases hcap : n = .cap
    · subst hcap; rfl
    · exact State.readCR_writeCR_other s v fun e => hcrw hcap v (e ▸ rfl)
  | mkpoly fa degree =>
    rw [State.readCR_writeCR_other _ _ fun e => hpoly ⟨e, fa, degree, rfl⟩]
    simp
  | combine =>
    rw [State.readCR_writeCR_other _ _ fun e => hsec ⟨e, rfl⟩]
    simp
  | error _ c => exact s.readCR_raise _ c hn

/-- Settles O26: the other commands leave the stored bytes and the count of resets alone (R22, R45). -/
theorem onlyTheseWriteBuf : Obligations.OnlyTheseWriteBuf := by
  unfold Obligations.OnlyTheseWriteBuf
  intro i s t ht hstb hmkpoly hsplit hcombine a
  cases exec_wrote ht with
  | destination | tbuild | crw | error => exact State.bufByte_congr (by simp) (by simp) a
  | stb fs addr => exact absurd rfl (hstb fs addr)
  | mkpoly fa degree => exact absurd rfl (hmkpoly fa degree)
  | split => exact absurd rfl hsplit
  | combine => exact absurd rfl hcombine

/-- Settles O13: the step is the read action, and that is an answer (R182). -/
theorem hostReadsOnlyAnswer : Obligations.HostReadsOnlyAnswer := by
  unfold Obligations.HostReadsOnlyAnswer
  intro s rest
  exact ⟨fun i h => step_action h, fun n h => step_action h, fun a h => step_action h⟩

/-- CRW to a writable register completes with the write (R153). -/
theorem exec_crw_writable {n : CReg} (h : n.writable = true) (v : Word) (s : State) :
    exec (.crw n v) s = .next (s.writeCR n v) := by
  simp [exec, execCrw, h]

/-- Settles O38: the twelve registers other than CR[0] to CR[3] are writable. -/
theorem crwResult : Obligations.CrwResult := by
  unfold Obligations.CrwResult
  intro n v s hs hl hh hc
  have hw : n.writable = true := CReg.writable_of_ne hs hl hh hc
  exact ⟨_, exec_crw_writable hw v s, State.readCR_writeCR_same s v hw,
    fun m hm => State.readCR_writeCR_other s v hm, by simp⟩

end Sys2Proof.Machine
end

section
/-! PROOFS. The tables of reset are inverse to each other (R12, R84). -/

namespace Sys2Proof.Machine

theorem mul3_iterate_one_ne_zero {i : Nat} (h : i < 255) : mul3^[i] 1 ≠ 0 := by
  have hi : i < expList.length := by rw [length_expList]; exact h
  rw [← expList_eq_iterate i hi]
  exact (expList_entry i hi).1

/-- The first 255 powers of the generator are distinct (R80, R84). -/
theorem mul3_iterate_one_injOn {i j : Nat} (hi : i < 255) (hj : j < 255) (h : mul3^[i] 1 = mul3^[j] 1) : i = j := by
  rw [← length_expList] at hi hj
  rw [← expList_eq_iterate i hi, ← expList_eq_iterate j hj] at h
  exact expList_injective hi hj h

theorem expAt_standard_of_lt {i : Nat} (h : i < 255) : standardTables.expAt i = mul3^[i] 1 := by
  rw [expAt_standard, Nat.mod_eq_of_lt h]

theorem expAt_logAt_standard (v : Byte) (hv : v ≠ 0) : standardTables.expAt (standardTables.logAt v hv) = v := by
  obtain ⟨hlt, hpow⟩ := logAt_standard v hv
  rw [expAt_standard_of_lt hlt, hpow]

theorem expAt_standard_ne_zero {i : Nat} (h : i < 255) : standardTables.expAt i ≠ 0 := by
  rw [expAt_standard_of_lt h]
  exact mul3_iterate_one_ne_zero h

theorem logAt_expAt_standard {i : Nat} (h : i < 255) :
    standardTables.logAt (standardTables.expAt i) (expAt_standard_ne_zero h) = i := by
  obtain ⟨hlt, hpow⟩ := logAt_standard _ (expAt_standard_ne_zero h)
  exact mul3_iterate_one_injOn hlt h (hpow.trans (expAt_standard_of_lt h))

/-- Settles O29: LOG gives the exponent of the power that EXP lists, and the 255 powers are distinct. -/
theorem tablesAreInverse : Obligations.TablesAreInverse :=
  ⟨expAt_logAt_standard, fun _ h => ⟨expAt_standard_ne_zero h, logAt_expAt_standard h⟩⟩

end Sys2Proof.Machine
end

section
/-! PROOFS. The field without tables: `mult` over the tables of reset is the product of polynomials modulo 0x11B (R99),
and Horner's method gives the value of the polynomial (R111). -/

namespace Sys2Proof.Machine

/-! ### The product of polynomials -/

/-- A map that respects addition and multiplying by x respects the product with any byte, bit by bit of that byte. -/
theorem polyProduct_map {f : Byte → Byte} (hadd : ∀ a b, f (a ^^^ b) = f a ^^^ f b)
    (hx : ∀ a, f (timesX a) = timesX (f a)) (a b : Byte) : polyProduct (f a) b = f (polyProduct a b) := by
  have hzero : f 0 = 0 := by simpa using hadd 0 0
  have hpow : ∀ i, f (timesX^[i] a) = timesX^[i] (f a) := fun i => (Function.Semiconj.iterate_right hx i) a
  simp only [polyProduct]
  conv_lhs => rw [← hzero]
  refine List.foldl_hom f fun sum i => ?_
  split
  · rw [hadd, hpow]
  · rfl

theorem mul3_timesX (a : Byte) : mul3 (timesX a) = timesX (mul3 a) := by
  rw [mul3_eq, mul3_eq, timesX_xor]

theorem mul3_iterate_timesX (n : Nat) (a : Byte) : mul3^[n] (timesX a) = timesX (mul3^[n] a) :=
  Function.Commute.iterate_left mul3_timesX n a

theorem polyProduct_mul3_iterate (n : Nat) (a b : Byte) :
    polyProduct (mul3^[n] a) b = mul3^[n] (polyProduct a b) :=
  polyProduct_map (mul3_iterate_xor n) (mul3_iterate_timesX n) a b

theorem one_polyProduct (b : Byte) : polyProduct 1 b = b := by
  revert b; decide +kernel

theorem zero_polyProduct (b : Byte) : polyProduct 0 b = 0 :=
  polyProduct_map (f := fun _ => 0) (fun _ _ => rfl) (fun _ => rfl) 0 b

/-! ### `mult` over the tables of reset (R92, R99) -/

theorem zero_mult (T : Tables) (b : Byte) : mult T 0 b = 0 := rfl

theorem mult_comm (T : Tables) (a b : Byte) : mult T a b = mult T b a := by
  by_cases ha : isZero a <;> by_cases hb : isZero b <;> simp [mult, ha, hb, Nat.add_comm]

theorem mult_zero (T : Tables) (a : Byte) : mult T a 0 = 0 := by
  rw [mult_comm, zero_mult]

/-- "The product of the polynomials of a and b over GF(2) reduced modulo 0x11B" (R99). -/
theorem mult_standard_eq_polyProduct (a b : Byte) : mult standardTables a b = polyProduct a b := by
  by_cases ha : a = 0
  · rw [ha, zero_polyProduct, zero_mult]
  · calc mult standardTables a b
        = mul3^[standardTables.logAt a ha] (polyProduct 1 b) := by rw [mult_eq_iterate a b ha, one_polyProduct]
      _ = polyProduct a b := by rw [← polyProduct_mul3_iterate, (logAt_standard a ha).2]

theorem mult_xor_right (a b c : Byte) :
    mult standardTables a (b ^^^ c) = mult standardTables a b ^^^ mult standardTables a c := by
  by_cases ha : a = 0
  · simp only [ha, zero_mult]; rfl
  · simp only [mult_eq_iterate a _ ha, mul3_iterate_xor]

theorem mult_standard_one (a : Byte) : mult standardTables a 1 = a := by
  rw [mult_comm, mult_standard_eq_polyProduct, one_polyProduct]

theorem mult_xor_left (a b c : Byte) :
    mult standardTables (a ^^^ b) c = mult standardTables a c ^^^ mult standardTables b c := by
  simp only [mult_comm _ _ c, mult_xor_right]

theorem mult_assoc (a b c : Byte) :
    mult standardTables (mult standardTables a b) c = mult standardTables a (mult standardTables b c) := by
  by_cases ha : a = 0
  · simp only [ha, zero_mult]
  · rw [mult_eq_iterate a b ha, mult_eq_iterate a _ ha, mult_standard_eq_polyProduct,
      polyProduct_mul3_iterate, mult_standard_eq_polyProduct]

/-! ### Horner's method (R111) -/

theorem polyProduct_fieldPow_succ (c x : Byte) (n : Nat) :
    polyProduct c (fieldPow x (n + 1)) = mult standardTables (polyProduct c (fieldPow x n)) x := by
  simp only [fieldPow, ← mult_standard_eq_polyProduct, mult_assoc]

/-- A polynomial's value is its intercept plus x times the value of the rest. -/
theorem polyValue_cons (a : Byte) (coeffs : List Byte) (x : Byte) :
    polyValue (a :: coeffs) x = mult standardTables (polyValue coeffs x) x ^^^ a := by
  have hfirst : 0 ^^^ polyProduct a (fieldPow x 0) = mult standardTables 0 x ^^^ a := by
    rw [fieldPow, ← mult_standard_eq_polyProduct, mult_standard_one, zero_mult]
  rw [polyValue, List.zipIdx_cons, List.zipIdx_succ, List.foldl_cons, List.foldl_map, hfirst]
  refine List.foldl_hom (fun v => mult standardTables v x ^^^ a) fun sum term => ?_
  rw [polyProduct_fieldPow_succ, mult_xor_left]
  ac_rfl

theorem horner_standard (x a : Byte) (higher : List Byte) :
    horner standardTables x a higher = polyValue (a :: higher) x := by
  induction higher generalizing a with
  | nil =>
    rw [polyValue_cons, polyValue, List.zipIdx_nil, List.foldl_nil, zero_mult, horner]
    exact BitVec.zero_xor.symm
  | cons b higher ih => rw [horner, ih, polyValue_cons a, add]

theorem evaluate_standard (p : Poly) (x : Byte) : evaluate standardTables p x = polyValue p.coeffs x := by
  rw [evaluate, Poly.coeffs, horner_standard]
  split
  · next hx =>
    rw [hx, polyValue_cons, mult_zero]
    exact BitVec.zero_xor.symm
  · rfl

end Sys2Proof.Machine
end

section
/-! PROOFS. BUF as the host and the 2-byte access see it (R42, R46, R182). -/

namespace Sys2Proof.Machine

/-- Settles O14: the step is the write action, and that stores one byte. -/
theorem hostWriteStoresOneByte : Obligations.HostWriteStoresOneByte := by
  unfold Obligations.HostWriteStoresOneByte
  intro s a v rest h
  refine ⟨_, step_action h, State.writeByte_eq _ _ _, State.bufByte_writeByte_same _ v a.isLt, fun b hb => ?_⟩
  rw [State.bufByte_writeByte_other _ v hb]
  exact State.bufByte_congr rfl rfl b

/-! ### The 2-byte write (R42) -/

theorem State.bufByte_memWrite2_low (s : State) {a : Nat} (v : Word) (ha : a < Config.bufSize) :
    (s.memWrite2 a v).bufByte a = v.extractLsb' 0 8 := by
  rw [State.memWrite2, State.bufByte_writeByte_other _ _ a.lt_succ_self.ne, State.bufByte_writeByte_same _ _ ha]

theorem State.bufByte_memWrite2_high (s : State) {a : Nat} (v : Word) (ha : a + 1 < Config.bufSize) :
    (s.memWrite2 a v).bufByte (a + 1) = v.extractLsb' 8 8 :=
  State.bufByte_writeByte_same _ _ ha

theorem State.bufByte_memWrite2_other (s : State) {a b : Nat} (v : Word) (hlow : b ≠ a) (hhigh : b ≠ a + 1) :
    (s.memWrite2 a v).bufByte b = s.bufByte b := by
  rw [State.memWrite2, State.bufByte_writeByte_other _ _ hhigh, State.bufByte_writeByte_other _ _ hlow]

/-- A word is its low byte plus 256 times its high byte (R41). -/
theorem toNat_eq_low_add_high (v : Word) :
    v.toNat = (v.extractLsb' 0 8).toNat + 256 * (v.extractLsb' 8 8).toNat := by
  have hv : v.toNat < 65536 := v.isLt
  simp only [BitVec.extractLsb'_toNat, Nat.shiftRight_eq_div_pow]
  omega

theorem State.memRead2_memWrite2 (s : State) {a : Nat} (v : Word) (ha : a + 1 < Config.bufSize) :
    (s.memWrite2 a v).memRead2 a = v.toNat := by
  rw [State.memRead2, s.bufByte_memWrite2_low v (by omega), s.bufByte_memWrite2_high v ha, ← toNat_eq_low_add_high]

/-- Settles O40: the reads are so by definition, and the write is two writes at different addresses. -/
theorem twoByteAccess : Obligations.TwoByteAccess := by
  unfold Obligations.TwoByteAccess
  intro s
  refine ⟨fun _ => rfl, fun _ => ⟨rfl, rfl⟩, fun a v ha => ?_⟩
  have hhigh : a + 1 < Config.bufSize := ha
  exact ⟨s.memRead2_memWrite2 v hhigh, s.bufByte_memWrite2_low v (by omega), s.bufByte_memWrite2_high v hhigh,
    fun b => s.bufByte_memWrite2_other v⟩

end Sys2Proof.Machine
end

section
/-! PROOFS. The region checks (R49) and the error a command raises (R168), in the words of the statements. -/

namespace Sys2Proof.Machine

theorem regionInRange_iff {base length : Nat} : regionInRange base length = true ↔ base + length ≤ 65536 :=
  decide_eq_true_iff

theorem regionsOverlap_iff {b1 n1 b2 n2 : Nat} (h1 : 0 < n1) (h2 : 0 < n2) :
    regionsOverlap b1 n1 b2 n2 = true ↔ ¬ Apart b1 n1 b2 n2 := by
  rw [regionsOverlap, decide_eq_true_iff, Apart]
  omega

theorem regionsOverlap_eq_false_iff {b1 n1 b2 n2 : Nat} (h1 : 0 < n1) (h2 : 0 < n2) :
    regionsOverlap b1 n1 b2 n2 = false ↔ Apart b1 n1 b2 n2 := by
  rw [← Bool.not_eq_true, regionsOverlap_iff h1 h2, not_not]

/-- A command that raises an error records its word and the STATUS word of the cause, and changes nothing else
(R167, R168). -/
theorem runCommand_error_eq_withError (i : Instr) (s : State) (c : Cause) :
    runCommand i s (.error c) = .next (s.withError (encode i) c.status) := rfl

end Sys2Proof.Machine
end

section
/-! PROOFS. COMBINE's checks, each with the error it raises (R141 to R143). -/

namespace Sys2Proof.Machine

theorem State.map_descriptors {α : Type} (s : State) (n : Nat) (f : Descriptor → α) :
    (s.descriptors n).map f = (List.range n).map fun k => f (s.descriptor k) :=
  List.map_map

/-! ### The length checks (R142) -/

/-- The length checks speak of each length and the first one. -/
theorem validateLengths_range {n : Nat} (hn : 0 < n) (len : Nat → Nat) :
    validateLengths ((List.range n).map len) =
      if len 0 < 2 then some .shortShare else if ∃ k < n, len k ≠ len 0 then some .lenMismatch else none := by
  obtain ⟨m, rfl⟩ : ∃ m, n = m + 1 := ⟨n - 1, by omega⟩
  have hany : (((List.range m).map Nat.succ).map len).any (fun l => l != len 0) = true ↔
      ∃ k < m + 1, len k ≠ len 0 := by
    simp only [List.any_map, List.any_eq_true, List.mem_range, Function.comp_apply, bne_iff_ne,
      Nat.exists_lt_succ_left, ne_eq, not_true_eq_false, false_or, Nat.succ_eq_add_one]
  rw [List.range_succ_eq_map, List.map_cons, validateLengths]
  simp only [hany]

/-! ### The region checks (R143) -/

section
variable {secbase descbase n len : Nat} {addr : Nat → Nat}

theorem checkCombineRegions_badAddress
    (h : (∃ k < n, 65536 < addr k + len) ∨ 65536 < secbase + (len - 1)) :
    checkCombineRegions secbase descbase n len ((List.range n).map addr) = some .badAddress := by
  refine if_pos ?_
  rw [Bool.not_eq_true', Bool.and_eq_false_iff]
  obtain ⟨k, hk, hfar⟩ | hfar := h
  · left
    refine List.all_eq_false.mpr ⟨addr k, List.mem_map_of_mem (List.mem_range.mpr hk), ?_⟩
    rwa [regionInRange_iff, not_le]
  · right
    rwa [← Bool.not_eq_true, regionInRange_iff, not_le]

theorem checkCombineRegions_overlap (hlen : 2 ≤ len) (hn : 0 < n) (hshares : ∀ k < n, addr k + len ≤ 65536)
    (hout : secbase + (len - 1) ≤ 65536)
    (h : (∃ k < n, ¬ Apart secbase (len - 1) (addr k) len) ∨ ¬ Apart secbase (len - 1) descbase (4 * n)) :
    checkCombineRegions secbase descbase n len ((List.range n).map addr) = some .overlap := by
  have hrange : ((List.range n).map addr).all (fun a => regionInRange a len) = true := by
    simpa only [List.all_map, List.all_eq_true, List.mem_range, Function.comp_apply, regionInRange_iff]
  have hlap : ((List.range n).map addr).any (fun a => regionsOverlap secbase (len - 1) a len) = true ∨
      regionsOverlap secbase (len - 1) descbase (4 * n) = true := by
    simpa only [List.any_map, List.any_eq_true, List.mem_range, Function.comp_apply,
      regionsOverlap_iff (show 0 < len - 1 by omega) (show 0 < len by omega),
      regionsOverlap_iff (show 0 < len - 1 by omega) (show 0 < 4 * n by omega)]
  rw [checkCombineRegions, hrange, regionInRange_iff.mpr hout, if_neg (by decide),
    if_pos (by rwa [Bool.or_eq_true])]

end

/-! ### The command, check by check (R141) -/

section
variable {s : State}

theorem exec_combine_few (h : s.nshares.toNat < 2) :
    exec .combine s = .next (s.withError (encode .combine) (Cause.validation .fewShares).status) := by
  rw [← runCommand_error_eq_withError]
  simp only [exec, execCombine, h, if_true]

theorem exec_combine_badTable (hcount : 2 ≤ s.nshares.toNat) (h : 65536 < s.descbase.toNat + 4 * s.nshares.toNat) :
    exec .combine s = .next (s.withError (encode .combine) (Cause.illegal .badAddress).status) := by
  have htable : regionInRange s.descbase.toNat (4 * s.nshares.toNat) = false := by
    rwa [← Bool.not_eq_true, regionInRange_iff, not_le]
  rw [← runCommand_error_eq_withError]
  simp [exec, execCombine, htable, hcount.not_gt]

section
variable (hcount : 2 ≤ s.nshares.toNat) (htable : s.descbase.toNat + 4 * s.nshares.toNat ≤ 65536)
include hcount htable

theorem exec_combine_badLengths {c : ValidationCause}
    (h : validateLengths ((List.range s.nshares.toNat).map fun k => (s.descriptor k).len) = some c) :
    exec .combine s = .next (s.withError (encode .combine) (Cause.validation c).status) := by
  rw [← runCommand_error_eq_withError]
  simp [exec, execCombine, hcount.not_gt, regionInRange_iff.mpr htable, s.map_descriptors, h]

theorem exec_combine_shortShare (h : (s.descriptor 0).len < 2) :
    exec .combine s = .next (s.withError (encode .combine) (Cause.validation .shortShare).status) := by
  refine exec_combine_badLengths hcount htable ?_
  rw [validateLengths_range (by omega), if_pos h]

theorem exec_combine_lenMismatch (hlong : 2 ≤ (s.descriptor 0).len)
    (h : ∃ k < s.nshares.toNat, (s.descriptor k).len ≠ (s.descriptor 0).len) :
    exec .combine s = .next (s.withError (encode .combine) (Cause.validation .lenMismatch).status) := by
  refine exec_combine_badLengths hcount htable ?_
  rw [validateLengths_range (by omega), if_neg hlong.not_gt, if_pos h]

end

theorem State.CombineValid.nshares_pos {len : Nat} (h : s.CombineValid len) : 0 < s.nshares.toNat :=
  two_pos.trans_le h.count

theorem State.CombineValid.descriptor_zero_len {len : Nat} (h : s.CombineValid len) : (s.descriptor 0).len = len :=
  h.lengths 0 h.nshares_pos

theorem State.CombineValid.validateLengths_eq_none {len : Nat} (h : s.CombineValid len) :
    validateLengths ((List.range s.nshares.toNat).map fun k => (s.descriptor k).len) = none := by
  have hfirst : (s.descriptor 0).len = len := h.descriptor_zero_len
  have hsame : ¬ ∃ k < s.nshares.toNat, (s.descriptor k).len ≠ (s.descriptor 0).len :=
    fun ⟨k, hk, hne⟩ => hne ((h.lengths k hk).trans hfirst.symm)
  rw [validateLengths_range h.nshares_pos, if_neg (hfirst ▸ h.long.not_gt), if_neg hsame]

theorem exec_combine_badRegions {len : Nat} {c : IllegalCause} (h : s.CombineValid len)
    (hc : checkCombineRegions s.secbase.toNat s.descbase.toNat s.nshares.toNat len
      ((List.range s.nshares.toNat).map fun k => (s.descriptor k).addr) = some c) :
    exec .combine s = .next (s.withError (encode .combine) (Cause.illegal c).status) := by
  rw [← runCommand_error_eq_withError]
  simp [exec, execCombine, h.count.not_gt, regionInRange_iff.mpr h.tableInRange, s.map_descriptors,
    h.validateLengths_eq_none, h.descriptor_zero_len, hc]

end

/-- Settles O53: each check that fails raises its error where the checks before it pass. -/
theorem combineCheckOrder : Obligations.CombineCheckOrder := by
  unfold Obligations.CombineCheckOrder
  intro s len
  refine ⟨exec_combine_few, exec_combine_badTable, exec_combine_shortShare, exec_combine_lenMismatch,
    fun hvalid hfar => exec_combine_badRegions hvalid (checkCombineRegions_badAddress hfar),
    fun hvalid hshares hout hlap => exec_combine_badRegions hvalid
      (checkCombineRegions_overlap hvalid.long hvalid.nshares_pos hshares hout hlap)⟩

end Sys2Proof.Machine
end

section
/-! PROOFS. SPLIT: the polynomials and coordinates it draws, the shares they give, and where the shares lie in BUF
(R51, R130 to R136). -/

namespace Sys2Proof.Machine

/-! ### The polynomials and the coordinates (R134, R135) -/

@[simp] theorem length_makePolynomials (degree : Nat) (secret : List Byte) (r : RandomSource) :
    (makePolynomials degree secret r).1.length = secret.length := by
  induction secret generalizing r with
  | nil => rfl
  | cons b secret ih => simp [makePolynomials, ih]

theorem makePolynomials_intercepts (degree : Nat) (secret : List Byte) (r : RandomSource) :
    (makePolynomials degree secret r).1.map Poly.intercept = secret := by
  induction secret generalizing r with
  | nil => rfl
  | cons b secret ih => simp [makePolynomials, makePolynomial, ih]

/-- Each polynomial has `degree` higher coefficients, none of them zero (R135, R176). -/
theorem makePolynomials_higher {degree : Nat} {secret : List Byte} {r : RandomSource} {p : Poly}
    (hp : p ∈ (makePolynomials degree secret r).1) : p.higher.length = degree ∧ ∀ c ∈ p.higher, c ≠ 0 := by
  induction secret generalizing r with
  | nil => exact absurd hp List.not_mem_nil
  | cons b secret ih =>
    rcases List.mem_cons.mp hp with rfl | hp
    · exact ⟨r.length_randCoeffs degree, r.randCoeffs_ne_zero degree⟩
    · exact ih hp

theorem length_coordinates (perm : PermDraw) {parts : Nat} (h : parts ≤ 255) :
    (coordinates perm parts).length = parts := by
  simp [coordinates, perm.length_eq, h]

theorem coordinates_nodup (perm : PermDraw) (parts : Nat) : (coordinates perm parts).Nodup :=
  (perm.nodup.sublist (List.take_sublist _ _)).map nonzeroByte_injective

theorem ne_zero_of_mem_coordinates {perm : PermDraw} {parts : Nat} {x : Byte} (h : x ∈ coordinates perm parts) :
    x ≠ 0 := by
  obtain ⟨v, -, rfl⟩ := List.mem_map.mp h
  exact nonzeroByte_ne_zero v

/-! ### The shares (R130) -/

@[simp] theorem length_shareAt (T : Tables) (polys : List Poly) (x : Byte) :
    (shareAt T polys x).length = polys.length + 1 := by
  simp [shareAt]

theorem getElem_shareAt_value (T : Tables) (polys : List Poly) (x : Byte) {i : Nat} (hi : i < polys.length) :
    (shareAt T polys x)[i]'(by simp; omega) = evaluate T polys[i] x := by
  simp [shareAt, hi]

theorem getElem_shareAt_coordinate (T : Tables) (polys : List Poly) (x : Byte) :
    (shareAt T polys x)[polys.length]'(by simp) = x := by
  simp [shareAt]

/-! ### Shares one after the other in BUF (R51) -/

theorem length_flatten_of_forall {L : List (List Byte)} {n : Nat} (h : ∀ l ∈ L, l.length = n) :
    L.flatten.length = L.length * n := by
  rw [List.length_flatten, List.map_congr_left h, List.map_const', List.sum_replicate_nat]

theorem getElem?_flatten_of_forall {L : List (List Byte)} {n k i : Nat} (h : ∀ l ∈ L, l.length = n)
    (hk : k < L.length) (hi : i < n) : L.flatten[k * n + i]? = L[k][i]? := by
  induction L generalizing k with
  | nil => simp at hk
  | cons l L ih =>
    obtain ⟨hl, hL⟩ := List.forall_mem_cons.mp h
    cases k with
    | zero => simp [List.getElem?_append_left (show i < l.length by omega)]
    | succ k =>
      have hidx : (k + 1) * n + i = l.length + (k * n + i) := by rw [hl]; ring
      rw [List.flatten_cons, hidx, List.getElem?_append_right (by omega), Nat.add_sub_cancel_left,
        ih hL (by simpa using hk), List.getElem_cons_succ]

/-- Byte `i` of element `k` of a sequence of lists of one length `n` written at `a` is read back at `a + k * n + i`. -/
theorem State.bufByte_writeBytes_flatten (s : State) {a n k i : Nat} {L : List (List Byte)}
    (h : ∀ l ∈ L, l.length = n) (hr : a + L.length * n ≤ Config.bufSize) (hk : k < L.length) (hi : i < L[k].length) :
    (s.writeBytes a L.flatten).bufByte (a + k * n + i) = L[k][i] := by
  have hin : i < n := h L[k] (List.getElem_mem hk) ▸ hi
  have hget := getElem?_flatten_of_forall h hk hin
  rw [List.getElem?_eq_getElem hi] at hget
  obtain ⟨hlt, hval⟩ := List.getElem?_eq_some_iff.mp hget
  rw [Nat.add_assoc, State.bufByte_writeBytes_inside s L.flatten _ hlt (by rwa [length_flatten_of_forall h]), hval]

/-! ### The command -/

theorem State.SplitValid.validateSplit_eq_none {s : State} (h : s.SplitValid) :
    validateSplit s.thresh.toNat s.parts.toNat s.seclen.toNat = none := by
  obtain ⟨hlow, hhigh, hge, hparts, hsec⟩ := h
  rw [validateSplit, if_neg (by omega), if_neg (by omega), if_neg (by omega), if_neg (by omega), if_neg (by omega)]

/-- The shares that SPLIT makes in a state, and the random source after them (R131). -/
def State.madeShares (s : State) : List Share × RandomSource :=
  splitShares s.tables (s.readBytes s.secbase.toNat s.seclen.toNat) s.parts.toNat s.thresh.toNat s.rng

/-- SPLIT that passes its checks writes the shares it makes, one after the other from SHRBASE (R51, R131). -/
theorem exec_split_of_accepted {s : State} (h : s.SplitAccepted) :
    exec .split s = .next ((s.setRng s.madeShares.2).writeBytes s.shrbase.toNat s.madeShares.1.flatten) := by
  obtain ⟨hvalid, hsecret, hshares, hapart⟩ := h
  have hlen : 0 < s.seclen.toNat := hvalid.secretNonempty
  have hparts : 0 < s.parts.toNat := two_pos.trans_le (hvalid.threshLow.trans hvalid.partsGeThresh)
  have hoverlap : regionsOverlap s.secbase.toNat s.seclen.toNat s.shrbase.toNat
      (s.parts.toNat * (s.seclen.toNat + 1)) = false :=
    (regionsOverlap_eq_false_iff hlen (by positivity)).mpr hapart
  simp [exec, execSplit, hvalid.validateSplit_eq_none, regionInRange_iff.mpr hsecret, regionInRange_iff.mpr hshares,
    hoverlap, State.madeShares]

section
variable (s : State)

/-- The polynomials SPLIT draws, one per secret byte, after its permutation (R135). -/
def State.madePolynomials : List Poly :=
  (makePolynomials (s.thresh.toNat - 1) (s.readBytes s.secbase.toNat s.seclen.toNat) s.rng.randPerm.2).1

/-- The coordinates SPLIT draws (R134). -/
def State.madeCoordinates : List Byte := coordinates s.rng.randPerm.1 s.parts.toNat

theorem State.madeShares_eq :
    s.madeShares.1 = s.madeCoordinates.map (shareAt s.tables s.madePolynomials) := rfl

@[simp] theorem State.length_madePolynomials : s.madePolynomials.length = s.seclen.toNat := by
  simp [State.madePolynomials]

theorem State.length_of_mem_madeShares {sh : Share} (h : sh ∈ s.madeShares.1) : sh.length = s.seclen.toNat + 1 := by
  obtain ⟨x, -, rfl⟩ := List.mem_map.mp h
  simp

theorem State.intercept_madePolynomials {i : Nat} (hi : i < s.madePolynomials.length) :
    s.madePolynomials[i].intercept = s.bufByte (s.secbase.toNat + i) := by
  have hmap : s.madePolynomials.map Poly.intercept = s.readBytes s.secbase.toNat s.seclen.toNat :=
    makePolynomials_intercepts ..
  have hread := s.getElem_readBytes s.secbase.toNat s.seclen.toNat i (by simpa using hi)
  simpa only [← hmap, List.getElem_map] using hread

theorem State.length_madeCoordinates (h : s.SplitAccepted) : s.madeCoordinates.length = s.parts.toNat :=
  length_coordinates _ h.partsHigh

theorem State.length_madeShares_flatten (h : s.SplitAccepted) :
    s.madeShares.1.flatten.length = s.parts.toNat * (s.seclen.toNat + 1) := by
  rw [length_flatten_of_forall fun _ => s.length_of_mem_madeShares, s.madeShares_eq, List.length_map,
    s.length_madeCoordinates h]

/-- Share `k` of SPLIT is read back from its own SECLEN + 1 bytes (R51). -/
theorem State.bufByte_madeShares (h : s.SplitAccepted) {k i : Nat} (hk : k < s.madeCoordinates.length)
    (hi : i < s.madePolynomials.length + 1) :
    ((s.setRng s.madeShares.2).writeBytes s.shrbase.toNat s.madeShares.1.flatten).bufByte
        (s.shrbase.toNat + k * (s.seclen.toNat + 1) + i) =
      (shareAt s.tables s.madePolynomials s.madeCoordinates[k])[i]'(by simpa using hi) := by
  have hcount : s.madeShares.1.length = s.parts.toNat := by
    rw [s.madeShares_eq, List.length_map, s.length_madeCoordinates h]
  have hrange : s.shrbase.toNat + s.madeShares.1.length * (s.seclen.toNat + 1) ≤ Config.bufSize :=
    hcount ▸ h.sharesInRange
  have hk' : k < s.madeShares.1.length := by rwa [hcount, ← s.length_madeCoordinates h]
  have hshare : s.madeShares.1[k] = shareAt s.tables s.madePolynomials s.madeCoordinates[k] := by
    simp only [s.madeShares_eq, List.getElem_map]
  rw [State.bufByte_writeBytes_flatten _ (fun _ => s.length_of_mem_madeShares) hrange hk' (by simpa [hshare] using hi)]
  simp only [hshare]

end

/-- Settles O48: the shares are the values of the polynomials SPLIT draws, at the coordinates it draws, one share of
SECLEN + 1 bytes after the other. -/
theorem splitWritesShares : Obligations.SplitWritesShares := by
  unfold Obligations.SplitWritesShares
  intro s htables h
  refine ⟨_, exec_split_of_accepted h, by rw [State.writeBytes_eq]; rfl, fun a ha => ?outside, s.madeCoordinates,
    s.madePolynomials.map Poly.coeffs, s.length_madeCoordinates h, coordinates_nodup _ _,
    fun x => ne_zero_of_mem_coordinates, by simp, fun i hi => ?coefficients, fun k hk => ⟨fun i hi => ?value, ?coordinate⟩⟩
  case outside =>
    rw [State.bufByte_writeBytes_outside _ _ (by rwa [s.length_madeShares_flatten h])]
    exact State.bufByte_congr rfl rfl a
  case coefficients =>
    rw [List.length_map] at hi
    obtain ⟨hlen, hne⟩ := makePolynomials_higher (List.getElem_mem hi)
    have hlow : 2 ≤ s.thresh.toNat := h.threshLow
    have hcount : s.thresh.toNat - 1 + 1 = s.thresh.toNat := by omega
    rw [List.getElem_map]
    exact ⟨(congrArg (· + 1) hlen).trans hcount, congrArg some (s.intercept_madePolynomials hi), hne⟩
  case value =>
    rw [List.length_map] at hi
    rw [s.bufByte_madeShares h hk (by omega), getElem_shareAt_value _ _ _ hi, htables, evaluate_standard,
      List.getElem_map]
  case coordinate =>
    have hread := s.bufByte_madeShares h hk (Nat.lt_succ_self _)
    rwa [getElem_shareAt_coordinate, s.length_madePolynomials] at hread

end Sys2Proof.Machine
end

section
/-! PROOFS. The formats (R62): the decoder's fields of a word the encoder packs, and a word packed again from its
fields. -/

namespace Sys2Proof

/-! ### Fields of a packed word -/

/-- A field above the lowest column of a word is a field of the columns above. -/
theorem extractLsb'_append_above {n m start len : Nat} {hi : BitVec n} {lo : BitVec m} {b : BitVec len}
    (h : hi.extractLsb' start len = b) : (hi ++ lo).extractLsb' (start + m) len = b := by
  rw [BitVec.extractLsb'_append_eq_of_le (Nat.le_add_left m start), Nat.add_sub_cancel, h]

theorem toFin_eq_of_eq_regBits {b : BitVec 4} {r : Fin 16} (h : b = regBits r) : b.toFin = r :=
  congrArg BitVec.toFin h

section
variable (op : Byte) (rd ra rb : Fin 16) (imm8 : Byte) (imm16 : Word)

@[simp] theorem rdField_packR3 : rdField (packR3 op rd ra rb) = rd :=
  toFin_eq_of_eq_regBits <| extractLsb'_append_above <| extractLsb'_append_above <| extractLsb'_append_above
    BitVec.extractLsb'_append_eq_right

@[simp] theorem raField_packR3 : raField (packR3 op rd ra rb) = ra :=
  toFin_eq_of_eq_regBits <| extractLsb'_append_above <| extractLsb'_append_above BitVec.extractLsb'_append_eq_right

@[simp] theorem rbField_packR3 : rbField (packR3 op rd ra rb) = rb :=
  toFin_eq_of_eq_regBits <| extractLsb'_append_above BitVec.extractLsb'_append_eq_right

@[simp] theorem rdField_packR2 : rdField (packR2 op rd ra) = rd :=
  toFin_eq_of_eq_regBits <| extractLsb'_append_above <| extractLsb'_append_above BitVec.extractLsb'_append_eq_right

@[simp] theorem raField_packR2 : raField (packR2 op rd ra) = ra :=
  toFin_eq_of_eq_regBits <| extractLsb'_append_above BitVec.extractLsb'_append_eq_right

@[simp] theorem rdField_packRI : rdField (packRI op rd imm8) = rd :=
  toFin_eq_of_eq_regBits <| extractLsb'_append_above <| extractLsb'_append_above BitVec.extractLsb'_append_eq_right

@[simp] theorem imm8Field_packRI : imm8Field (packRI op rd imm8) = imm8 := BitVec.extractLsb'_append_eq_right

@[simp] theorem raField_packPI : raField (packPI op ra imm8) = ra :=
  toFin_eq_of_eq_regBits <| extractLsb'_append_above <| extractLsb'_append_above BitVec.extractLsb'_append_eq_right

@[simp] theorem imm8Field_packPI : imm8Field (packPI op ra imm8) = imm8 := BitVec.extractLsb'_append_eq_right

@[simp] theorem rdField_packM : rdField (packM op rd imm16) = rd :=
  toFin_eq_of_eq_regBits <| extractLsb'_append_above <| extractLsb'_append_above BitVec.extractLsb'_append_eq_right

@[simp] theorem imm16Field_packM : imm16Field (packM op rd imm16) = imm16 := BitVec.extractLsb'_append_eq_right

end

/-! ### A word packed again from its fields -/

/-- Two columns of a word, the lower one `m` bits wide from bit `start` up and the other next above it, are one column
of it. -/
theorem append_columns {w : Command} (start m : Nat) {n : Nat} {hi : BitVec n} {lo : BitVec m}
    (hhi : w.extractLsb' (start + m) n = hi) (hlo : w.extractLsb' start m = lo) :
    w.extractLsb' start (n + m) = hi ++ lo := by
  rw [← hhi, ← hlo, BitVec.extractLsb'_append_extractLsb'_eq_extractLsb' rfl]

section
variable {w : Command} {op : Byte} (hop : opcodeField w = op)
include hop

theorem packZ_fields (h : reservedBitsZero .z w = true) : packZ op = w :=
  (append_columns 0 24 hop (eq_of_beq h)).symm.trans BitVec.extractLsb'_eq_self

theorem packR3_fields (h : reservedBitsZero .r3 w = true) :
    packR3 op (rdField w) (raField w) (rbField w) = w :=
  (append_columns 0 12 (append_columns 12 4 (append_columns 16 4 (append_columns 20 4 hop rfl) rfl) rfl)
    (eq_of_beq h)).symm.trans BitVec.extractLsb'_eq_self

theorem packR2_fields (h : reservedBitsZero .r2 w = true) : packR2 op (rdField w) (raField w) = w :=
  (append_columns 0 16 (append_columns 16 4 (append_columns 20 4 hop rfl) rfl) (eq_of_beq h)).symm.trans
    BitVec.extractLsb'_eq_self

theorem packRI_fields (h : reservedBitsZero .ri w = true) : packRI op (rdField w) (imm8Field w) = w :=
  (append_columns 0 8 (append_columns 8 12 (append_columns 20 4 hop rfl) (eq_of_beq h)) rfl).symm.trans
    BitVec.extractLsb'_eq_self

theorem packPI_fields (h : reservedBitsZero .pi w = true) : packPI op (raField w) (imm8Field w) = w := by
  obtain ⟨hhigh, hlow⟩ := Bool.and_eq_true_iff.mp h
  exact (append_columns 0 8 (append_columns 8 8 (append_columns 16 4 (append_columns 20 4 hop (eq_of_beq hhigh)) rfl)
    (eq_of_beq hlow)) rfl).symm.trans BitVec.extractLsb'_eq_self

/-- Formats M and C have the same must-be-zero bits (R68). -/
theorem packM_fields (h : reservedBitsZero .m w = true) : packM op (rdField w) (imm16Field w) = w :=
  (append_columns 0 16 (append_columns 16 4 (append_columns 20 4 hop rfl) (eq_of_beq h)) rfl).symm.trans
    BitVec.extractLsb'_eq_self

end

end Sys2Proof
end

section
/-! PROOFS. The mask of a row of the opcode map (R64) asks for the row's opcode and for zeros in the must-be-zero bits
of its format (R68). -/

namespace Sys2Proof

/-- The word with ones in bits `start` to `start + len - 1` and zeros elsewhere. -/
def onesAt (start len : Nat) : Command := (BitVec.allOnes len).setWidth 32 <<< start

/-- The must-be-zero bits of a format as a mask (R68). -/
def Format.reservedMask : Format → Command
  | .z => onesAt 0 24
  | .r3 => onesAt 0 12
  | .r2 => onesAt 0 16
  | .ri => onesAt 8 12
  | .pi => onesAt 20 4 ||| onesAt 8 8
  | .m => onesAt 16 4
  | .c => onesAt 16 4

theorem getLsbD_onesAt (start len k : Nat) :
    (onesAt start len).getLsbD k = decide (k < 32 ∧ start ≤ k ∧ k < start + len) := by
  simp only [onesAt, BitVec.getLsbD_shiftLeft, BitVec.getLsbD_setWidth, BitVec.getLsbD_allOnes]
  grind

theorem and_onesAt_eq_zero_iff (w : Command) {start len : Nat} (h : start + len ≤ 32) :
    w &&& onesAt start len = 0 ↔ w.extractLsb' start len = 0 := by
  simp only [BitVec.eq_of_getLsbD_eq_iff, BitVec.getLsbD_and, getLsbD_onesAt, BitVec.getLsbD_extractLsb']
  constructor
  · intro hmask k hk
    have hbit := hmask (start + k) (by omega)
    grind
  · intro hfield k hk
    by_cases hin : start ≤ k ∧ k < start + len
    · have hbit := hfield (k - start) (by omega)
      grind
    · grind

theorem and_reservedMask_eq_zero_iff (fmt : Format) (w : Command) :
    w &&& fmt.reservedMask = 0 ↔ reservedBitsZero fmt w = true := by
  cases fmt with
  | z | r3 | r2 | ri | m | c => exact (and_onesAt_eq_zero_iff w (by decide)).trans beq_iff_eq.symm
  | pi =>
    rw [Format.reservedMask, BitVec.and_or_distrib_left, reservedBitsZero, Bool.and_eq_true_iff]
    exact BitVec.or_eq_zero_iff.trans (and_congr ((and_onesAt_eq_zero_iff w (by decide)).trans beq_iff_eq.symm)
      ((and_onesAt_eq_zero_iff w (by decide)).trans beq_iff_eq.symm))

/-- To ask for the bits `r` of a mask besides the bits `m`, apart from them, is to ask for zeros in `r`. -/
theorem and_or_eq_and_iff {w m r : Command} (hapart : m &&& r = 0) :
    w &&& (m ||| r) = w &&& m ↔ w &&& r = 0 := by
  constructor
  · intro heq
    calc w &&& r
      _ = w &&& (m ||| r) &&& r := by simp [BitVec.and_assoc, BitVec.and_or_distrib_right, hapart]
      _ = w &&& m &&& r := by rw [heq]
      _ = 0 := by simp [BitVec.and_assoc, hapart]
  · intro hzero
    simp [BitVec.and_or_distrib_left, hzero]

/-- A mask with ones in bits 31 to 24 keeps the opcode. -/
theorem opcodeField_and (w : Command) {m : Command} (h : opcodeField m = 0xFF) :
    opcodeField (w &&& m) = opcodeField w := by
  rw [opcodeField, BitVec.extractLsb'_and, ← opcodeField, ← opcodeField, h]
  exact BitVec.and_allOnes

theorem packZ_opcodeField (w : Command) : packZ (opcodeField w) = w &&& onesAt 24 8 := by
  have hzero : reservedBitsZero .z (w &&& onesAt 24 8) = true := by
    rw [← and_reservedMask_eq_zero_iff, BitVec.and_assoc]
    exact BitVec.and_zero
  exact packZ_fields (opcodeField_and w (by decide)) hzero

/-! ### The rows of the map (R64) -/

theorem opcodeField_mask {row : OpcodeRow} (h : row ∈ opcodeMap) : opcodeField row.mask = 0xFF := by
  revert row; decide

theorem pattern_eq_packZ {row : OpcodeRow} (h : row ∈ opcodeMap) : row.pattern = packZ row.opcode := by
  revert row; decide

theorem mask_eq_of_format {row : OpcodeRow} (h : row ∈ opcodeMap) :
    (formatOf row.opcode).map (onesAt 24 8 ||| ·.reservedMask) = some row.mask := by
  revert row; decide

theorem find?_opcode {row : OpcodeRow} (h : row ∈ opcodeMap) :
    opcodeMap.find? (·.opcode == row.opcode) = some row := by
  revert row; decide

/-- The listed opcodes are those of the rows of the map (R64, R66). -/
theorem formatOf_eq_none_iff (b : Byte) : formatOf b = none ↔ b ∉ opcodeMap.map OpcodeRow.opcode := by
  revert b; decide +kernel

/-- A word in a row of the map has the row's opcode. -/
theorem opcodeField_eq_of_match {row : OpcodeRow} (hrow : row ∈ opcodeMap) {w : Command}
    (h : w &&& row.mask = row.pattern) : opcodeField w = row.opcode := by
  rw [← opcodeField_and w (opcodeField_mask hrow), h, pattern_eq_packZ hrow]
  exact BitVec.extractLsb'_append_eq_left

/-- A word with the opcode of a row is in the row exactly when the must-be-zero bits of its format are zero (R62, R64,
R68). -/
theorem match_iff_reservedBitsZero {row : OpcodeRow} (hrow : row ∈ opcodeMap) {w : Command} {fmt : Format}
    (hop : opcodeField w = row.opcode) (hfmt : formatOf (opcodeField w) = some fmt) :
    w &&& row.mask = row.pattern ↔ reservedBitsZero fmt w = true := by
  have hmask : onesAt 24 8 ||| fmt.reservedMask = row.mask := by
    simpa [← hop, hfmt] using mask_eq_of_format hrow
  have hapart : onesAt 24 8 &&& fmt.reservedMask = 0 := by cases fmt <;> decide
  rw [← hmask, pattern_eq_packZ hrow, ← hop, packZ_opcodeField, and_or_eq_and_iff hapart,
    and_reservedMask_eq_zero_iff]

end Sys2Proof
end

section
/-! PROOFS. The decoder and the encoder (R61 to R68). -/

namespace Sys2Proof

/-! ### The decoder, row by row (R65) -/

theorem decode_of_opcode {row : OpcodeRow} (hrow : row ∈ opcodeMap) {w : Command} (hop : opcodeField w = row.opcode) :
    decode w = if w &&& row.mask = row.pattern then .ok (operandsOf row.mnemonic w) else .error .reservedBits := by
  rw [decode, hop, find?_opcode hrow]

theorem decode_of_match {row : OpcodeRow} (hrow : row ∈ opcodeMap) {w : Command} (h : w &&& row.mask = row.pattern) :
    decode w = .ok (operandsOf row.mnemonic w) := by
  rw [decode_of_opcode hrow (opcodeField_eq_of_match hrow h), if_pos h]

/-- A word that decodes is in a row of the map, and its operands are those of the row. -/
theorem exists_row_of_decode {w : Command} {i : Instr} (h : decode w = .ok i) :
    ∃ row ∈ opcodeMap, w &&& row.mask = row.pattern ∧ operandsOf row.mnemonic w = i := by
  unfold decode at h
  split at h
  · cases h
  · next row hfind =>
    split at h
    · exact ⟨row, List.mem_of_find?_eq_some hfind, ‹_›, Except.ok.inj h⟩
    · cases h

theorem decode_of_reservedOpcode {w : Command} (h : formatOf (opcodeField w) = none) :
    decode w = .error .reservedOpcode := by
  have hnone : opcodeMap.find? (·.opcode == opcodeField w) = none := by
    rw [formatOf_eq_none_iff] at h
    rw [List.find?_eq_none]
    exact fun row hrow heq => h (List.mem_map.mpr ⟨row, hrow, eq_of_beq heq⟩)
  rw [decode, hnone]

theorem exists_row_of_formatOf {b : Byte} {fmt : Format} (h : formatOf b = some fmt) :
    ∃ row ∈ opcodeMap, row.opcode = b := by
  rw [← List.mem_map]
  by_contra hmem
  rw [(formatOf_eq_none_iff b).mpr hmem] at h
  cases h

/-- A word with a listed opcode decodes exactly when the must-be-zero bits of its format are zero (R65, R68). -/
theorem decode_of_formatOf {w : Command} {fmt : Format} (h : formatOf (opcodeField w) = some fmt) :
    (reservedBitsZero fmt w = false → decode w = .error .reservedBits) ∧
    (reservedBitsZero fmt w = true → ∃ i, decode w = .ok i) := by
  obtain ⟨row, hrow, hop⟩ := exists_row_of_formatOf h
  have hiff := match_iff_reservedBitsZero hrow hop.symm h
  constructor
  · intro hzero
    rw [decode_of_opcode hrow hop.symm, if_neg (by simp [hiff, hzero])]
  · exact fun hzero => ⟨_, decode_of_match hrow (hiff.mpr hzero)⟩

/-- Settles O3: the opcode is that of no row, or the mask of its row asks for zeros in the must-be-zero bits. -/
theorem decoderRefusesByName : Obligations.DecoderRefusesByName := by
  unfold Obligations.DecoderRefusesByName
  exact fun w => ⟨decode_of_reservedOpcode, fun fmt => decode_of_formatOf⟩

/-- Settles O4: a word in two rows has the opcodes of both, and no two rows have one opcode. -/
theorem opcodeRowsDisjoint : Obligations.OpcodeRowsDisjoint := by
  unfold Obligations.OpcodeRowsDisjoint
  have hne : opcodeMap.Pairwise fun r1 r2 => r1.opcode ≠ r2.opcode := by decide
  refine hne.imp_of_mem fun h1 h2 hne w => ?_
  rintro ⟨hw1, hw2⟩
  exact hne ((opcodeField_eq_of_match h1 hw1).symm.trans (opcodeField_eq_of_match h2 hw2))

/-- Settles O5: each word has the opcode of its command and zero must-be-zero bits. -/
theorem specWordsDecode : Obligations.SpecWordsDecode := by
  unfold Obligations.SpecWordsDecode
  decide

/-! ### Decoding and encoding undo each other -/

theorem matchesRow (i : Instr) : Laws.MatchesRow.Statement i := by
  cases i with
  | tbuild => exact Laws.MatchesRow.tbuild
  | gfadd fd fa fb => exact Laws.MatchesRow.gfadd fd fa fb
  | gfmul fd fa fb => exact Laws.MatchesRow.gfmul fd fa fb
  | gfdiv fd fa fb => exact Laws.MatchesRow.gfdiv fd fa fb
  | ldi fd imm8 => exact Laws.MatchesRow.ldi fd imm8
  | ldb fd addr => exact Laws.MatchesRow.ldb fd addr
  | stb fs addr => exact Laws.MatchesRow.stb fs addr
  | crw cr imm16 => exact Laws.MatchesRow.crw cr imm16
  | mkpoly fa degree => exact Laws.MatchesRow.mkpoly fa degree
  | eval fd fa => exact Laws.MatchesRow.eval fd fa
  | interp fd fa => exact Laws.MatchesRow.interp fd fa
  | split => exact Laws.MatchesRow.split
  | combine => exact Laws.MatchesRow.combine

/-- The operands in the word of an instruction are the instruction's own (R62): each is a field of a packed word. -/
theorem operandsOf_encode (i : Instr) : operandsOf (Laws.rowOf i).mnemonic (encode i) = i := by
  cases i with
  | tbuild | split | combine => rfl
  | gfadd | gfmul | gfdiv => simp only [Laws.rowOf, encode, operandsOf, rdField_packR3, raField_packR3, rbField_packR3]
  | eval | interp => simp only [Laws.rowOf, encode, operandsOf, rdField_packR2, raField_packR2]
  | ldi => simp only [Laws.rowOf, encode, operandsOf, rdField_packRI, imm8Field_packRI]
  | mkpoly => simp only [Laws.rowOf, encode, operandsOf, raField_packPI, imm8Field_packPI]
  | ldb | stb => simp only [Laws.rowOf, encode, operandsOf, rdField_packM, imm16Field_packM]
  | crw => simp only [Laws.rowOf, encode, operandsOf, rdField_packM, imm16Field_packM, Machine.CReg.ofNum_num]

/-- Settles O1: the word of an instruction is in the instruction's row, and its operands are the instruction's. -/
theorem decodeAfterEncode : Obligations.DecodeAfterEncode := by
  unfold Obligations.DecodeAfterEncode
  intro i
  obtain ⟨hrow, hmatch⟩ := matchesRow i
  rw [decode_of_match hrow hmatch, operandsOf_encode]

/-- The row of an instruction read from a word by a row is that row. -/
theorem rowOf_operandsOf {row : OpcodeRow} (h : row ∈ opcodeMap) (w : Command) :
    Laws.rowOf (operandsOf row.mnemonic w) = row := by
  revert row
  simp [opcodeMap, operandsOf, Laws.rowOf]

/-- A word is packed again from the operands a mnemonic reads in it, where it has the mnemonic's opcode and zeros in the
must-be-zero bits of that opcode's format. -/
theorem encode_operandsOf {m : Mnemonic} {w : Command} (hop : opcodeField w = (Laws.rowOf (operandsOf m w)).opcode)
    (hzero : ∀ fmt, formatOf (Laws.rowOf (operandsOf m w)).opcode = some fmt → reservedBitsZero fmt w = true) :
    encode (operandsOf m w) = w := by
  cases m with
  | tbuild | split | combine => exact packZ_fields hop (hzero .z rfl)
  | gfadd | gfmul | gfdiv => exact packR3_fields hop (hzero .r3 rfl)
  | eval | interp => exact packR2_fields hop (hzero .r2 rfl)
  | ldi => exact packRI_fields hop (hzero .ri rfl)
  | mkpoly => exact packPI_fields hop (hzero .pi rfl)
  | ldb | stb => exact packM_fields hop (hzero .m rfl)
  | crw =>
    rw [operandsOf, encode, Machine.CReg.num_ofNum]
    exact packM_fields hop (hzero .c rfl)

/-- Settles O2: the word is in a row, so it is packed again from the operands the row reads in it. -/
theorem encodeAfterDecode : Obligations.EncodeAfterDecode := by
  unfold Obligations.EncodeAfterDecode
  intro w i h
  obtain ⟨row, hrow, hmatch, rfl⟩ := exists_row_of_decode h
  have hop := opcodeField_eq_of_match hrow hmatch
  refine encode_operandsOf (by rwa [rowOf_operandsOf hrow]) fun fmt hfmt => ?_
  rw [rowOf_operandsOf hrow, ← hop] at hfmt
  exact (match_iff_reservedBitsZero hrow hop hfmt).mp hmatch

end Sys2Proof
end

section
/-! PROOFS. A word the host presents in READY is executed, or raises its decode error (R65, R66, R68, R172). -/

namespace Sys2Proof.Machine

theorem executeWord_of_ok {w : Command} {i : Instr} (h : decode w = .ok i) (s : State) :
    executeWord w s = exec i s := by
  rw [executeWord, h]

theorem executeWord_of_error {w : Command} {e : DecodeError} (h : decode w = .error e) (s : State) :
    executeWord w s = .next (s.withError w (decodeCause e).status) := by
  rw [executeWord, h]
  rfl

theorem State.ready_iff (s : State) : s.ready = true ↔ statusRun s.status = runReady := beq_iff_eq

/-- In READY a step executes the word the host presents (R172, R182). -/
theorem step_issue_of_ready {s : State} {w : Command} {rest : List HostAction} (hhost : s.host = .issue w :: rest)
    (hrun : statusRun s.status = runReady) : step s = executeWord w { s with host := rest } := by
  have hready : State.ready { s with host := rest } = true := (State.ready_iff _).mpr hrun
  rw [step_action hhost, hostAction, presentWord, if_pos hready]

/-- Settles O6: the word is executed, and it decodes. -/
theorem stepRunsIssuedCommand : Obligations.StepRunsIssuedCommand := by
  unfold Obligations.StepRunsIssuedCommand
  intro s w i rest hhost hrun hdecode
  rw [step_issue_of_ready hhost hrun, executeWord_of_ok hdecode]

/-- The 32 bits of a word placed with `withFetchWord` are the word (log 11). -/
theorem State.withFetchWord_toNat (s : State) (w : Command) : s.withFetchWord 32 w.toNat = s.withNextWord w := by
  rw [State.withFetchWord, Nat.mod_eq_of_lt w.isLt, BitVec.ofNat_toNat, BitVec.setWidth_eq]

/-- In READY a word placed next is executed on the state it was placed in. -/
theorem step_withNextWord_of_ready {s : State} (hrun : statusRun s.status = runReady) (w : Command) :
    step (s.withNextWord w) = executeWord w s := by
  rw [State.withNextWord, if_pos (s.ready_iff.mpr hrun)]
  exact step_issue_of_ready (s := { s with host := .issue w :: s.host }) rfl hrun

/-- Outside READY a word placed next is executed on the state with the pending error taken away (log 11). -/
theorem step_withNextWord_of_not_ready {s : State} (hrun : statusRun s.status ≠ runReady) (w : Command) :
    step (s.withNextWord w) = executeWord w { s with status := 0, errcmdl := 0, errcmdh := 0 } := by
  have hcleared : statusRun 0 = runReady := by decide
  rw [State.withNextWord, if_neg (mt s.ready_iff.mp hrun)]
  exact step_issue_of_ready
    (s := { s with host := .issue w :: s.host, status := 0, errcmdl := 0, errcmdh := 0 }) rfl hcleared

/-- Settles O7: the placed word is executed next, and it decodes to its instruction. -/
theorem placedWordRunsNext : Obligations.PlacedWordRunsNext := by
  unfold Obligations.PlacedWordRunsNext
  intro s i
  have hdecode : decode (encode i) = .ok i := decodeAfterEncode i
  rw [State.withFetchWord_toNat]
  constructor
  · intro hrun
    rw [step_withNextWord_of_ready hrun, executeWord_of_ok hdecode]
  · intro hrun
    rw [step_withNextWord_of_not_ready hrun, executeWord_of_ok hdecode]

/-- Settles O8: the opcode has no format, so the word is refused by RESERVED_OPCODE. -/
theorem reservedOpcodeRaises : Obligations.ReservedOpcodeRaises := by
  unfold Obligations.ReservedOpcodeRaises
  intro s w rest hhost hrun hw
  have hnone : formatOf (opcodeField w) = none := by
    obtain hlist | rfl | rfl := hw
    · exact (formatOf_eq_none_iff _).mpr hlist
    · rfl
    · rfl
  rw [step_issue_of_ready hhost hrun, executeWord_of_error (decode_of_reservedOpcode hnone)]
  rfl

/-- Settles O9: the word has a listed opcode and a nonzero must-be-zero bit, so it is refused by RESERVED_BITS. -/
theorem reservedBitsRaise : Obligations.ReservedBitsRaise := by
  unfold Obligations.ReservedBitsRaise
  intro s w rest fmt hhost hrun hfmt hbits
  rw [step_issue_of_ready hhost hrun, executeWord_of_error ((decode_of_formatOf hfmt).1 hbits)]
  rfl

end Sys2Proof.Machine
end

section
/-! PROOFS. TBUILD rebuilds the tables of rules R82 and R83 from any state (R80, R81). -/

namespace Sys2Proof.Machine

/-- TBUILD raises no error: it completes with the tables it constructs (R81). -/
theorem exec_tbuild (s : State) : exec .tbuild s = .next (s.setTables buildTables) := rfl

/-- Settles O28: TBUILD stores the constructed tables, and these are the listed ones. -/
theorem tbuildRebuildsTables : Obligations.TbuildRebuildsTables := by
  unfold Obligations.TbuildRebuildsTables
  intro s
  rw [exec_tbuild, buildTables_eq, State.setTables]

end Sys2Proof.Machine
end

section
/-! PROOFS. Division over the tables of reset: the quotient is the one byte whose product with the divisor is the
dividend (R93, R98, R99). -/

namespace Sys2Proof.Machine

/-! ### Cancellation -/

/-- No power of the generator is 0, whatever its exponent. -/
theorem mul3_iterate_one_ne_zero_of_any (n : Nat) : mul3^[n] 1 ≠ 0 := by
  rw [← iterate_mul3_mod]
  exact mul3_iterate_one_ne_zero (Nat.mod_lt _ (by decide))

/-- The product with a power of the generator is that many steps of the generator. -/
theorem mult_mul3_iterate_one (n : Nat) (b : Byte) : mult standardTables (mul3^[n] 1) b = mul3^[n] b := by
  rw [mult_standard_eq_polyProduct, polyProduct_mul3_iterate, one_polyProduct]

/-- There are no zero divisors: nonzero bytes are powers of the generator, and so is their product. -/
theorem mult_standard_eq_zero {a b : Byte} (h : mult standardTables a b = 0) : a = 0 ∨ b = 0 := by
  by_contra! hne
  obtain ⟨ha, hb⟩ := hne
  rw [← (logAt_standard a ha).2, ← (logAt_standard b hb).2, mult_mul3_iterate_one,
    ← Function.iterate_add_apply] at h
  exact mul3_iterate_one_ne_zero_of_any _ h

theorem mult_standard_right_cancel {a b c : Byte} (hc : c ≠ 0)
    (h : mult standardTables a c = mult standardTables b c) : a = b := by
  have hsum : mult standardTables (a ^^^ b) c = 0 := by
    rw [mult_xor_left, h]
    exact BitVec.xor_self
  exact add_eq_zero.mp ((mult_standard_eq_zero hsum).resolve_right hc)

/-! ### `div` over the tables of reset (R93) -/

theorem zero_div (T : Tables) {b : Byte} (hb : b ≠ 0) : div T 0 b = .ok 0 := by
  rw [div, dif_neg hb]; rfl

/-- On nonzero bytes the quotient is the power whose exponent makes up the divisor's logarithm to the dividend's,
modulo 255. -/
theorem div_standard_of_ne_zero {a b : Byte} (ha : a ≠ 0) (hb : b ≠ 0) :
    ∃ n, div standardTables a b = .ok (mul3^[n] 1) ∧
      (n + standardTables.logAt b hb = standardTables.logAt a ha ∨
        n + standardTables.logAt b hb = standardTables.logAt a ha + 255) := by
  have hza : ¬ isZero a = true := by simpa [isZero] using ha
  have hlog : standardTables.logAt b hb < 255 := (logAt_standard b hb).1
  rw [div, dif_neg hb, dif_neg hza]
  simp only [expAt_standard, iterate_mul3_mod]
  exact ⟨_, rfl, by split <;> omega⟩

theorem mult_of_div_standard {a b q : Byte} (h : div standardTables a b = .ok q) :
    mult standardTables q b = a := by
  have hb : b ≠ 0 := by
    rintro rfl
    rw [div_zero] at h
    cases h
  by_cases ha : a = 0
  · rw [ha, zero_div _ hb] at h
    cases h
    rw [ha, zero_mult]
  · obtain ⟨n, hn, hexp⟩ := div_standard_of_ne_zero ha hb
    obtain rfl : mul3^[n] 1 = q := Except.ok.inj (hn.symm.trans h)
    calc mult standardTables (mul3^[n] 1) b
        = mul3^[n + standardTables.logAt b hb] 1 := by
          rw [mult_mul3_iterate_one, Function.iterate_add_apply, (logAt_standard b hb).2]
      _ = mul3^[standardTables.logAt a ha] 1 := by
          obtain hexp | hexp := hexp
          · rw [hexp]
          · rw [hexp, Function.iterate_add_apply, iterate_mul3_order]
      _ = a := (logAt_standard a ha).2

/-- The quotient is the one byte whose product with the divisor is the dividend. -/
theorem div_standard_eq_ok_iff {a b q : Byte} (hb : b ≠ 0) :
    div standardTables a b = .ok q ↔ mult standardTables q b = a := by
  refine ⟨mult_of_div_standard, fun h => ?_⟩
  obtain ⟨p, hp⟩ := div_ok standardTables a hb
  have hpq : p = q := mult_standard_right_cancel hb ((mult_of_div_standard hp).trans h.symm)
  rw [hp, hpq]

/-- Settles O30: the product has its first factor as its quotient by the second. -/
theorem fieldIdentities : Obligations.FieldIdentities := by
  unfold Obligations.FieldIdentities
  intro a b
  exact ⟨add_eq_zero.mpr rfl, mult_zero _ a, mult_standard_one a,
    fun hb => (div_standard_eq_ok_iff hb).mpr rfl, div_zero _ a⟩

/-- Settles O31: the laws of the product come from the polynomials, those of the quotient from its product. -/
theorem fieldLaws : Obligations.FieldLaws := by
  unfold Obligations.FieldLaws
  intro a b c
  have hone : mult standardTables 1 a = a := (mult_comm _ _ _).trans (mult_standard_one a)
  refine ⟨BitVec.xor_comm a b, BitVec.xor_assoc a b c, BitVec.xor_zero, mult_comm _ a b, mult_assoc a b c,
    mult_xor_right a b c, hone, mult_standard_eq_zero, fun ha => (div_standard_eq_ok_iff ha).mpr hone,
    (div_standard_eq_ok_iff (by decide)).mpr (mult_standard_one a), fun hb => ?_, mult_standard_eq_polyProduct a b⟩
  obtain ⟨q, hq⟩ := div_ok standardTables a hb
  exact ⟨q, hq, mult_of_div_standard hq⟩

end Sys2Proof.Machine
end

section
/-! PROOFS. GFADD, GFMUL and GFDIV (R94 to R96): each writes its destination, or GFDIV raises the division by zero. -/

namespace Sys2Proof.Machine

theorem exec_gfadd (fd fa fb : FReg) (s : State) :
    exec (.gfadd fd fa fb) s = .next (s.setF fd (s.getF fa ^^^ s.getF fb)) := rfl

theorem exec_gfmul (fd fa fb : FReg) (s : State) :
    exec (.gfmul fd fa fb) s = .next (s.setF fd (mult s.tables (s.getF fa) (s.getF fb))) := rfl

theorem exec_gfdiv_of_div_ok {fa fb : FReg} {s : State} {q : Byte} (fd : FReg)
    (h : div s.tables (s.getF fa) (s.getF fb) = .ok q) :
    exec (.gfdiv fd fa fb) s = .next (s.setF fd q) := by
  rw [exec, execGfdiv, h, runCommand_ok]

theorem exec_gfdiv_of_zero {fb : FReg} {s : State} (fd fa : FReg) (h : s.getF fb = 0) :
    exec (.gfdiv fd fa fb) s =
      .next (s.withError (encode (.gfdiv fd fa fb)) Cause.divisionByZero.status) := by
  rw [exec, execGfdiv, h, div_zero, runCommand_error_eq_withError]

/-- Settles O32: the sources are read before the one register is written. -/
theorem gfaddResult : Obligations.GfaddResult := by
  unfold Obligations.GfaddResult
  intro fd fa fb s
  exact ⟨_, exec_gfadd fd fa fb s, s.setF_eq fd _, s.getF_setF_same fd _, fun _ hr => s.getF_setF_other _ hr⟩

/-- Settles O33: `mult` over the built tables is the product of polynomials. -/
theorem gfmulResult : Obligations.GfmulResult := by
  unfold Obligations.GfmulResult
  intro fd fa fb s htables
  refine ⟨_, exec_gfmul fd fa fb s, s.setF_eq fd _, ?_, fun _ hr => s.getF_setF_other _ hr⟩
  rw [State.getF_setF_same, htables, mult_standard_eq_polyProduct]

/-- Settles O34: the quotient exists, and its product with the divisor is the dividend. -/
theorem gfdivResult : Obligations.GfdivResult := by
  unfold Obligations.GfdivResult
  intro fd fa fb s htables hb
  obtain ⟨q, hq⟩ := div_ok s.tables (s.getF fa) hb
  refine ⟨_, exec_gfdiv_of_div_ok fd hq, s.setF_eq fd _, ?_, fun _ hr => s.getF_setF_other _ hr⟩
  rw [htables] at hq
  rw [State.getF_setF_same, ← mult_standard_eq_polyProduct, mult_of_div_standard hq]

/-- Settles O35: `div` checks the divisor first, and 0x0203 is the STATUS word of its error. -/
theorem gfdivByZeroIsFatal : Obligations.GfdivByZeroIsFatal := by
  unfold Obligations.GfdivByZeroIsFatal
  intro fd fa fb s hb
  have hstatus : Cause.divisionByZero.status = 0x0203 := by decide
  rw [exec_gfdiv_of_zero fd fa hb, hstatus]

end Sys2Proof.Machine
end

section
/-! PROOFS. What reaches FATAL: the division by zero, of GFDIV or of INTERP on a repeated x sample (R144, R163). -/

namespace Sys2Proof.Machine

theorem Cause.run_eq_fatal_iff (c : Cause) : c.run = runFatal ↔ c = .divisionByZero := by
  cases c <;> simp [Cause.run, runHeld, runFatal]

/-- Only error entry writes STATUS: a command that completes leaves it (R18). -/
theorem Completed.status_eq {i : Instr} {s t : State} (h : Completed i s t) : t.status = s.status := by
  cases i
  case gfadd | gfmul | ldi | ldb | stb | tbuild => cases h; simp
  case gfdiv => obtain ⟨q, -, rfl⟩ := h; rfl
  case crw => obtain ⟨-, rfl⟩ := h; simp
  case mkpoly => obtain ⟨-, -, rfl⟩ := h; simp
  case eval | interp => obtain ⟨v, rfl⟩ := h; rfl
  case split | combine => obtain ⟨r, vs, rfl⟩ := h; simp

/-- In READY the one way into FATAL is to raise the division by zero. -/
theorem canRaise_of_fatal {i : Instr} {s t : State} (hrun : statusRun s.status = runReady)
    (h : exec i s = .next t) (hfatal : statusRun t.status = runFatal) : CanRaise i .divisionByZero := by
  rcases exec_next h with hc | ⟨c, hraise, rfl⟩
  · rw [hc.status_eq, hrun] at hfatal
    exact absurd hfatal (by decide)
  · rw [State.raise_status, statusRun_status, Cause.run_eq_fatal_iff] at hfatal
    exact hfatal ▸ hraise

/-- Only GFDIV and INTERP divide where a divisor may be 0; COMBINE checks its coordinates before (R144). -/
theorem canRaise_divisionByZero {i : Instr} (h : CanRaise i .divisionByZero) :
    (∃ fd fa fb, i = .gfdiv fd fa fb) ∨ ∃ fd fa, i = .interp fd fa := by
  cases i
  case gfdiv fd fa fb => exact .inl ⟨fd, fa, fb, rfl⟩
  case interp fd fa => exact .inr ⟨fd, fa, rfl⟩
  all_goals simp [CanRaise] at h

/-- On distinct x samples INTERP writes its destination or is refused by one of its two checks (R121, R122). -/
theorem exec_interp_of_nodup {s : State} (fd fa : FReg)
    (h : (s.readBytes s.xsbase.toNat s.nsamp.toNat).Nodup) :
    (∃ v, exec (.interp fd fa) s = .next (s.setF fd v)) ∨
    ∃ c, exec (.interp fd fa) s = .next (s.raise (encode (.interp fd fa)) (.illegal c)) := by
  obtain ⟨v, hv⟩ :=
    interpolateAt_ok s.tables (s.readBytes s.ysbase.toNat s.nsamp.toNat) (s.getF fa) h
  simp only [exec, execInterp, hv]
  split
  · exact .inr ⟨.badLength, rfl⟩
  · split
    · exact .inr ⟨.badAddress, rfl⟩
    · exact .inl ⟨v, rfl⟩

theorem exec_gfdiv_safe {fa fb : FReg} {s t : State} {fd : FReg} (hs : s.Safe) (hb : s.getF fb ≠ 0)
    (h : exec (.gfdiv fd fa fb) s = .next t) : t.Safe := by
  obtain ⟨q, hq⟩ := div_ok s.tables (s.getF fa) hb
  rw [exec_gfdiv_of_div_ok fd hq] at h
  cases h
  exact hs

theorem exec_interp_safe {fd fa : FReg} {s t : State} (hs : s.Safe)
    (hn : (s.readBytes s.xsbase.toNat s.nsamp.toNat).Nodup) (h : exec (.interp fd fa) s = .next t) : t.Safe := by
  obtain ⟨v, he⟩ | ⟨c, he⟩ := exec_interp_of_nodup fd fa hn <;> rw [he] at h <;> cases h
  · exact hs
  · rw [State.Safe, State.raise_status, statusRun_status]
    simp [Cause.run_eq_fatal_iff]

/-- Settles O19: FATAL is the division by zero, which GFDIV raises on a zero divisor only and INTERP on a repeated
x sample only. -/
theorem fatalOnlyFromDivision : Obligations.FatalOnlyFromDivision := by
  unfold Obligations.FatalOnlyFromDivision
  intro i s t hrun h hfatal
  have hs : s.Safe := by rw [State.Safe, hrun]; decide
  obtain ⟨fd, fa, fb, rfl⟩ | ⟨fd, fa, rfl⟩ := canRaise_divisionByZero (canRaise_of_fatal hrun h hfatal)
  · exact .inl ⟨fd, fa, fb, rfl, by_contra fun hb => exec_gfdiv_safe hs hb h hfatal⟩
  · exact .inr ⟨fd, fa, rfl, fun hn => exec_interp_safe hs hn h hfatal⟩

end Sys2Proof.Machine
end

section
/-! PROOFS. The polynomial engine: MKPOLY and EVAL, check by check, and what they write (R110 to R113). -/

namespace Sys2Proof.Machine

@[simp] theorem State.bufByte_writeCR (s : State) (n : CReg) (v : Word) (a : Nat) :
    (s.writeCR n v).bufByte a = s.bufByte a :=
  State.bufByte_congr (by simp) (by simp) a

@[simp] theorem State.bufByte_setRng (s : State) (r : RandomSource) (a : Nat) : (s.setRng r).bufByte a = s.bufByte a :=
  rfl

theorem regionInRange_eq_false_iff {base length : Nat} :
    regionInRange base length = false ↔ 65536 < base + length := by
  rw [← Bool.not_eq_true, regionInRange_iff, not_le]

/-- With its draws supplied `makePolynomial` takes exactly them, in order (R110, R176). -/
theorem makePolynomial_supplied (b : Byte) {r : RandomSource} {draws rest : List (Fin 255)} {degree : Nat}
    (h : r.coeffs = draws ++ rest) (hlen : draws.length = degree) :
    makePolynomial b degree r = (⟨b, draws.map nonzeroByte⟩, { r with coeffs := rest }) := by
  rw [makePolynomial, ← hlen, r.randCoeffs_supplied draws rest h]

/-! ### MKPOLY (R112) -/

/-- The polynomial that MKPOLY makes in a state, and the random source after it (R110). -/
def State.mkpolyMade (s : State) (fa : FReg) (degree : Byte) : Poly × RandomSource :=
  makePolynomial (s.getF fa) degree.toNat s.rng

/-- The state MKPOLY leaves where it passes its checks: the polynomial it makes in BUF, its length in POLYLEN. -/
def State.afterMkpoly (s : State) (fa : FReg) (degree : Byte) : State :=
  ((s.setRng (s.mkpolyMade fa degree).2).writeBytes s.polybase.toNat (s.mkpolyMade fa degree).1.coeffs).writeCR
    .polylen (BitVec.ofNat 16 (degree.toNat + 1))

theorem exec_mkpoly_zero (fa : FReg) (s : State) :
    exec (.mkpoly fa 0) s = .next (s.withError (encode (.mkpoly fa 0)) (Cause.illegal .badDegree).status) := rfl

section
variable {s : State} {degree : Byte} (fa : FReg)

theorem exec_mkpoly_badAddress (hdegree : degree ≠ 0) (h : 65536 < s.polybase.toNat + degree.toNat + 1) :
    exec (.mkpoly fa degree) s =
      .next (s.withError (encode (.mkpoly fa degree)) (Cause.illegal .badAddress).status) := by
  have hne : degree.toNat ≠ 0 := BitVec.toNat_ne.mp hdegree
  have hrange : regionInRange s.polybase.toNat (degree.toNat + 1) = false := regionInRange_eq_false_iff.mpr h
  rw [← runCommand_error_eq_withError]
  simp [exec, execMkpoly, hne, hrange]

theorem exec_mkpoly_of_fits (hdegree : degree ≠ 0) (h : s.polybase.toNat + degree.toNat + 1 ≤ 65536) :
    exec (.mkpoly fa degree) s = .next (s.afterMkpoly fa degree) := by
  have hne : degree.toNat ≠ 0 := BitVec.toNat_ne.mp hdegree
  have hrange : regionInRange s.polybase.toNat (degree.toNat + 1) = true := regionInRange_iff.mpr h
  simp [exec, execMkpoly, hne, hrange, State.afterMkpoly, State.mkpolyMade]

end

section
variable (s : State) (fa : FReg) (degree : Byte)

theorem State.length_higher_mkpolyMade : (s.mkpolyMade fa degree).1.higher.length = degree.toNat :=
  s.rng.length_randCoeffs degree.toNat

theorem State.length_coeffs_mkpolyMade : (s.mkpolyMade fa degree).1.coeffs.length = degree.toNat + 1 :=
  congrArg (· + 1) (s.length_higher_mkpolyMade fa degree)

theorem State.afterMkpoly_eq : s.afterMkpoly fa degree = { s with
    buf := (s.afterMkpoly fa degree).buf, polylen := (s.afterMkpoly fa degree).polylen,
    rng := (s.afterMkpoly fa degree).rng } := by
  rw [State.afterMkpoly, State.writeBytes_eq]
  rfl

theorem State.afterMkpoly_rng : (s.afterMkpoly fa degree).rng = (s.mkpolyMade fa degree).2 := by
  simp [State.afterMkpoly]

theorem State.afterMkpoly_polylen : (s.afterMkpoly fa degree).polylen.toNat = degree.toNat + 1 := by
  have hdegree : degree.toNat < 256 := degree.isLt
  exact Nat.mod_eq_of_lt (by omega)

theorem State.bufByte_afterMkpoly_outside {a : Nat}
    (h : a < s.polybase.toNat ∨ s.polybase.toNat + degree.toNat < a) :
    (s.afterMkpoly fa degree).bufByte a = s.bufByte a := by
  rw [State.afterMkpoly, State.bufByte_writeCR, State.bufByte_writeBytes_outside, State.bufByte_setRng]
  rwa [State.length_coeffs_mkpolyMade]

variable {s degree} (hfits : s.polybase.toNat + degree.toNat + 1 ≤ 65536)
include hfits

theorem State.bufByte_afterMkpoly {j : Nat} (hj : j < (s.mkpolyMade fa degree).1.coeffs.length) :
    (s.afterMkpoly fa degree).bufByte (s.polybase.toNat + j) =
      (s.mkpolyMade fa degree).1.coeffs[j] := by
  rw [State.afterMkpoly, State.bufByte_writeCR]
  exact State.bufByte_writeBytes_inside _ _ j hj (by rwa [State.length_coeffs_mkpolyMade])

theorem State.bufByte_afterMkpoly_intercept : (s.afterMkpoly fa degree).bufByte s.polybase.toNat = s.getF fa :=
  State.bufByte_afterMkpoly fa hfits (j := 0) (by simp [State.length_coeffs_mkpolyMade])

theorem State.bufByte_afterMkpoly_higher {j : Nat} (hj : j < (s.mkpolyMade fa degree).1.higher.length) :
    (s.afterMkpoly fa degree).bufByte (s.polybase.toNat + (j + 1)) =
      (s.mkpolyMade fa degree).1.higher[j] :=
  State.bufByte_afterMkpoly fa hfits (Nat.succ_lt_succ hj)

end

/-- Settles O41: MKPOLY writes the polynomial it makes, whose higher coefficients are its draws. -/
theorem mkpolyResult : Obligations.MkpolyResult := by
  unfold Obligations.MkpolyResult
  intro fa degree s hdegree hfits
  refine ⟨_, exec_mkpoly_of_fits fa hdegree hfits, s.afterMkpoly_eq fa degree, s.afterMkpoly_polylen fa degree,
    State.bufByte_afterMkpoly_intercept fa hfits, fun j hpos hj => ?nonzero,
    fun a => s.bufByte_afterMkpoly_outside fa degree, fun draws rest hdraws hlen => ?draws⟩
  case nonzero =>
    obtain ⟨j, rfl⟩ := Nat.exists_eq_add_of_le' hpos
    rw [State.bufByte_afterMkpoly_higher fa hfits (by rwa [State.length_higher_mkpolyMade])]
    exact s.rng.randCoeffs_ne_zero degree.toNat _ (List.getElem_mem _)
  case draws =>
    have hmade : s.mkpolyMade fa degree = (⟨s.getF fa, draws.map nonzeroByte⟩, { s.rng with coeffs := rest }) :=
      makePolynomial_supplied (s.getF fa) hdraws hlen
    refine ⟨by rw [State.afterMkpoly_rng, hmade], fun j hj => ?_⟩
    rw [Nat.add_assoc, State.bufByte_afterMkpoly_higher fa hfits (by rwa [State.length_higher_mkpolyMade, ← hlen])]
    simp only [hmade, List.getElem_map]
    rfl

/-- Settles O42: the degree is checked before the region. -/
theorem mkpolyRefusals : Obligations.MkpolyRefusals := by
  unfold Obligations.MkpolyRefusals
  intro fa degree s
  refine ⟨?_, exec_mkpoly_badAddress fa⟩
  rintro rfl
  exact exec_mkpoly_zero fa s

/-! ### EVAL (R113) -/

/-- The polynomial EVAL reads: POLYLEN coefficients from POLYBASE. -/
def State.storedPoly (s : State) : Poly :=
  ⟨s.bufByte s.polybase.toNat, s.readBytes (s.polybase.toNat + 1) (s.polylen.toNat - 1)⟩

theorem State.readBytes_succ (s : State) (base n : Nat) :
    s.readBytes base (n + 1) = s.bufByte base :: s.readBytes (base + 1) n := by
  simp [State.readBytes, List.range_succ_eq_map, Nat.add_assoc, Nat.add_comm 1]

section
variable {s : State} (fd fa : FReg)

theorem State.coeffs_storedPoly (h : 1 ≤ s.polylen.toNat) :
    s.storedPoly.coeffs = s.readBytes s.polybase.toNat s.polylen.toNat := by
  rw [← Nat.sub_add_cancel h, State.readBytes_succ]
  rfl

theorem exec_eval_badLength (h : s.polylen = 0) :
    exec (.eval fd fa) s = .next (s.withError (encode (.eval fd fa)) (Cause.illegal .badLength).status) := by
  rw [← runCommand_error_eq_withError]
  simp [exec, execEval, h]

theorem exec_eval_badAddress (hlen : s.polylen ≠ 0) (h : 65536 < s.polybase.toNat + s.polylen.toNat) :
    exec (.eval fd fa) s = .next (s.withError (encode (.eval fd fa)) (Cause.illegal .badAddress).status) := by
  have hne : s.polylen.toNat ≠ 0 := BitVec.toNat_ne.mp hlen
  rw [← runCommand_error_eq_withError]
  simp [exec, execEval, hne, regionInRange_eq_false_iff.mpr h]

theorem exec_eval_of_fits (hlen : 1 ≤ s.polylen.toNat) (h : s.polybase.toNat + s.polylen.toNat ≤ 65536) :
    exec (.eval fd fa) s = .next (s.setF fd (evaluate s.tables s.storedPoly (s.getF fa))) := by
  simp [exec, execEval, Nat.one_le_iff_ne_zero.mp hlen, regionInRange_iff.mpr h, State.storedPoly]

end

/-- Settles O43: over the built tables `evaluate` is the value of the polynomial EVAL reads. -/
theorem evalResult : Obligations.EvalResult := by
  unfold Obligations.EvalResult
  intro fd fa s htables hlen hfits
  refine ⟨_, exec_eval_of_fits fd fa hlen hfits, s.setF_eq fd _, ?_, fun _ hr => s.getF_setF_other _ hr⟩
  rw [State.getF_setF_same, htables, evaluate_standard, State.coeffs_storedPoly hlen]

/-- Settles O44: the length is checked before the region. -/
theorem evalRefusals : Obligations.EvalRefusals := by
  unfold Obligations.EvalRefusals
  intro fd fa s
  exact ⟨exec_eval_badLength fd fa, exec_eval_badAddress fd fa⟩

end Sys2Proof.Machine
end

section
/-! PROOFS. The draws of SPLIT: one permutation, then the coefficients byte after byte (R134, R135). -/

namespace Sys2Proof.Machine

/-- With their draws supplied the polynomials take exactly them: polynomial `i` has the `degree` draws from number
`i * degree` onward as its higher coefficients (R135). -/
theorem makePolynomials_supplied {degree : Nat} {secret : List Byte} {r : RandomSource}
    {draws rest : List (Fin 255)} (h : r.coeffs = draws ++ rest) (hlen : draws.length = secret.length * degree) :
    (makePolynomials degree secret r).2 = { r with coeffs := rest } ∧
    ∀ (i : Nat) (hi : i < (makePolynomials degree secret r).1.length),
      (makePolynomials degree secret r).1[i].higher =
        ((draws.drop (i * degree)).take degree).map nonzeroByte := by
  induction secret generalizing r draws with
  | nil =>
    obtain rfl : draws = [] := by simpa using hlen
    obtain rfl : r.coeffs = rest := h
    exact ⟨rfl, fun i hi => absurd hi (by simp)⟩
  | cons b secret ih =>
    have hcount : draws.length = secret.length * degree + degree := by
      rw [hlen, List.length_cons, Nat.succ_mul]
    have hfirst : makePolynomial b degree r =
        (⟨b, (draws.take degree).map nonzeroByte⟩, { r with coeffs := draws.drop degree ++ rest }) :=
      makePolynomial_supplied b (by rw [h, ← List.append_assoc, List.take_append_drop])
        (by rw [List.length_take]; omega)
    obtain ⟨hrng, hhigher⟩ := ih (r := { r with coeffs := draws.drop degree ++ rest }) rfl
      (by rw [List.length_drop]; omega)
    refine ⟨by rw [makePolynomials, hfirst]; exact hrng, fun i hi => ?_⟩
    simp only [makePolynomials, hfirst] at hi ⊢
    cases i with
    | zero => simp
    | succ i =>
      rw [List.getElem_cons_succ, hhigher, List.drop_drop, Nat.succ_mul, Nat.add_comm degree]

theorem RandomSource.randPerm_supplied {r : RandomSource} {perm : PermDraw} {perms : List PermDraw}
    (h : r.perms = perm :: perms) : r.randPerm = (perm, { r with perms := perms }) := by
  rw [RandomSource.randPerm, h]

section
variable {s : State} {perm : PermDraw} {perms : List PermDraw} (hperms : s.rng.perms = perm :: perms)
include hperms

theorem State.getElem_madeCoordinates {k : Nat} (hk : k < s.madeCoordinates.length) (hk' : k < perm.entries.length) :
    s.madeCoordinates[k] = nonzeroByte perm.entries[k] := by
  simp [State.madeCoordinates, coordinates, RandomSource.randPerm_supplied hperms]

variable {draws rest : List (Fin 255)} (hcoeffs : s.rng.coeffs = draws ++ rest)
  (hlen : draws.length = s.seclen.toNat * (s.thresh.toNat - 1))
include hcoeffs hlen

theorem State.madeShares_rng : s.madeShares.2 = { s.rng with perms := perms, coeffs := rest } := by
  rw [State.madeShares, splitShares, RandomSource.randPerm_supplied hperms]
  exact (makePolynomials_supplied (r := { s.rng with perms := perms }) hcoeffs (by simpa using hlen)).1

theorem State.coeffs_madePolynomials {i : Nat} (hi : i < s.madePolynomials.length) :
    s.madePolynomials[i].coeffs = s.bufByte (s.secbase.toNat + i) ::
      ((draws.drop (i * (s.thresh.toNat - 1))).take (s.thresh.toNat - 1)).map nonzeroByte := by
  have hsource : s.rng.randPerm.2.coeffs = draws ++ rest := by
    rw [RandomSource.randPerm_supplied hperms, hcoeffs]
  rw [Poly.coeffs, s.intercept_madePolynomials hi]
  exact congrArg _ ((makePolynomials_supplied hsource (by simpa using hlen)).2 i hi)

end

/-- Settles O49: the shares are read back from BUF, and the polynomials and coordinates they are made of are the
draws supplied. -/
theorem splitTakesItsDraws : Obligations.SplitTakesItsDraws := by
  unfold Obligations.SplitTakesItsDraws
  intro s t perm perms draws rest htables h hperms hcoeffs hlen ht
  obtain rfl := Host.Outcome.next.inj ((exec_split_of_accepted h).symm.trans ht)
  refine ⟨?_, fun k hk => ?_⟩
  · rw [State.writeBytes_rng, State.setRng_rng, State.madeShares_rng hperms hcoeffs hlen]
  · have hk' : k < s.madeCoordinates.length := by rwa [s.length_madeCoordinates h]
    have hcoordinate := s.bufByte_madeShares h hk' (Nat.lt_succ_self _)
    rw [getElem_shareAt_coordinate, s.length_madePolynomials] at hcoordinate
    rw [hcoordinate]
    refine ⟨fun i hi => ?_, s.getElem_madeCoordinates hperms hk'⟩
    have hi' : i < s.madePolynomials.length := by rwa [s.length_madePolynomials]
    rw [s.bufByte_madeShares h hk' (by omega), getElem_shareAt_value _ _ _ hi', htables, evaluate_standard,
      State.coeffs_madePolynomials hperms hcoeffs hlen]
    rfl

end Sys2Proof.Machine
end

section
/-! PROOFS. The commands on the reset values of the control registers (R192). -/

namespace Sys2Proof.Machine

theorem exec_split_invalid {s : State} {c : ValidationCause}
    (h : validateSplit s.thresh.toNat s.parts.toNat s.seclen.toNat = some c) :
    exec .split s = .next (s.withError (encode .split) (Cause.validation c).status) := by
  rw [← runCommand_error_eq_withError]
  simp only [exec, execSplit, h]

theorem exec_interp_badLength {s : State} (fd fa : FReg) (h : s.nsamp.toNat < 2) :
    exec (.interp fd fa) s = .next (s.withError (encode (.interp fd fa)) (Cause.illegal .badLength).status) := by
  rw [← runCommand_error_eq_withError]
  simp only [exec, execInterp, h, if_true]

theorem State.getF_reset (r : FReg) : State.reset.getF r = 0 :=
  Vector.getElem_replicate _

/-- Settles O60: the counts and lengths of reset fail each command's first check, and MKPOLY has room from address 0. -/
theorem commandsRightAfterReset : Obligations.CommandsRightAfterReset := by
  unfold Obligations.CommandsRightAfterReset
  refine ⟨exec_split_invalid (c := .threshLow) rfl, exec_combine_few (by decide),
    fun fd fa => exec_eval_badLength fd fa rfl, fun fd fa => exec_interp_badLength fd fa (by decide),
    fun fa degree hdegree => ?_⟩
  have hfits : State.reset.polybase.toNat + degree.toNat + 1 ≤ 65536 := by
    have hlt : degree.toNat < 256 := degree.isLt
    have hbase : State.reset.polybase.toNat = 0 := rfl
    omega
  exact ⟨_, exec_mkpoly_of_fits fa hdegree hfits,
    (State.bufByte_afterMkpoly_intercept fa hfits).trans (State.getF_reset fa),
    State.afterMkpoly_polylen _ fa degree⟩

end Sys2Proof.Machine
end

section
/-! PROOFS. The bytes as a field: they map one to one into a field whose addition and product are the unit's (R1, R99),
so the library's theorems on fields and polynomials speak of `add`, `mult`, `div` and `polyValue`. -/

namespace Sys2Proof.Machine

/-- The quotient of 1 by a byte; 0, as in the library's fields, where there is none. -/
def inverse (a : Byte) : Byte := (div standardTables 1 a).toOption.getD 0

theorem mult_inverse {a : Byte} (ha : a ≠ 0) : mult standardTables a (inverse a) = 1 := by
  obtain ⟨q, hq⟩ := div_ok standardTables 1 ha
  have hinv : inverse a = q := by rw [inverse, hq]; rfl
  rw [hinv, mult_comm, mult_of_div_standard hq]

theorem inverse_zero : inverse 0 = 0 := by
  rw [inverse, div_zero]; rfl

/-- The bytes with XOR as addition and `mult` over the tables of reset as product are a field (R98, R99); every byte
is its own negative. -/
@[reducible] def byteField : Field Byte :=
  @Field.ofMinimalAxioms Byte ⟨add⟩ ⟨mult standardTables⟩ ⟨id⟩ ⟨inverse⟩ ⟨0⟩ ⟨1⟩
    BitVec.xor_assoc (fun _ => BitVec.zero_xor) (fun _ => BitVec.xor_self) mult_assoc (mult_comm _)
    (fun a => (mult_comm _ 1 a).trans (mult_standard_one a)) (fun _ => mult_inverse) inverse_zero mult_xor_right
    ⟨0, 1, by decide⟩

/-- A map of the bytes into a field, one to one, that carries XOR and `mult` to the field's addition and product. -/
structure IsFieldMap {F : Type} [Field F] (e : Byte → F) : Prop where
  injective : Function.Injective e
  map_xor : ∀ a b, e (a ^^^ b) = e a + e b
  map_mult : ∀ a b, e (mult standardTables a b) = e a * e b

theorem exists_isFieldMap : ∃ (F : Type) (_ : Field F) (e : Byte → F), IsFieldMap e :=
  letI := byteField
  ⟨Byte, byteField, id, Function.injective_id, fun _ _ => rfl, fun _ _ => rfl⟩

section
variable {F : Type} [Field F] {e : Byte → F} (he : IsFieldMap e)
include he

theorem IsFieldMap.map_zero : e 0 = 0 := by
  simpa using he.map_xor 0 0

theorem IsFieldMap.map_one : e 1 = 1 := by
  have hne : e 1 ≠ 0 := fun h => absurd (he.injective (h.trans he.map_zero.symm)) (by decide)
  have hsq : e 1 * e 1 = e 1 := by rw [← he.map_mult, mult_standard_one]
  exact mul_right_cancel₀ hne (hsq.trans (one_mul _).symm)

/-- The field has characteristic 2, so its subtraction is XOR too (R90). -/
theorem IsFieldMap.map_add_eq_sub (a b : Byte) : e (add a b) = e a - e b := by
  have hself : e b + e b = 0 := by rw [← he.map_xor, BitVec.xor_self]; exact he.map_zero
  rw [add, he.map_xor, sub_eq_add_neg, neg_eq_of_add_eq_zero_left hself]

theorem IsFieldMap.map_div {a b q : Byte} (hb : b ≠ 0) (h : div standardTables a b = .ok q) : e q = e a / e b := by
  have hne : e b ≠ 0 := fun h => hb (he.injective (h.trans he.map_zero.symm))
  rw [eq_div_iff hne, ← he.map_mult, mult_of_div_standard h]

/-- `polyValue` is the value of a polynomial of the library, of degree below the number of coefficients (R111). -/
theorem IsFieldMap.exists_polynomial (coeffs : List Byte) :
    ∃ P : Polynomial F, P.degree < coeffs.length ∧ ∀ x, e (polyValue coeffs x) = P.eval (e x) := by
  induction coeffs with
  | nil => exact ⟨0, by simp, fun x => by rw [Polynomial.eval_zero]; exact he.map_zero⟩
  | cons a coeffs ih =>
    obtain ⟨P, hdegree, hvalue⟩ := ih
    refine ⟨P * .X + .C (e a), ?_, fun x => ?_⟩
    · rw [Polynomial.degree_lt_iff_coeff_zero] at hdegree ⊢
      rintro (_ | m) hm
      · simp at hm
      · simpa using hdegree m (by simpa using hm)
    · rw [polyValue_cons, he.map_xor, he.map_mult, hvalue]
      simp

end

end Sys2Proof.Machine
end

section
/-! PROOFS. The interpolator over the tables of reset is Lagrange interpolation in the field (R120, R121): its value is
that of every polynomial of low degree through the samples, which the spec infers from general knowledge (G2). -/

namespace Sys2Proof.Machine

/-- One sample's term added to the sum of `interpolateAt` (R120). -/
def interpolateStep (T : Tables) (xs : List Byte) (x result : Byte) (sample : (Byte × Byte) × Nat) :
    Except Cause Byte := do
  let basis ← lagrangeBasis T x sample.1.1 (xs.eraseIdx sample.2)
  pure (add result (mult T sample.1.2 basis))

theorem interpolateAt_eq_foldlM (T : Tables) (xs ys : List Byte) (x : Byte) :
    interpolateAt T xs ys x = (xs.zip ys).zipIdx.foldlM (interpolateStep T xs x) 0x00 := rfl

/-! ### The value on distinct samples -/

section
variable {F : Type} [Field F] {e : Byte → F} (he : IsFieldMap e)
include he

/-- The product of the quotients, from any byte upward. -/
theorem IsFieldMap.map_lagrangeBasis_fold (x : Byte) {xi : Byte} {others : List Byte} (hxi : xi ∉ others) {b v : Byte}
    (h : others.foldlM (fun basis xj => do
      let quotient ← div standardTables (add x xj) (add xi xj)
      pure (mult standardTables basis quotient)) b = .ok v) :
    e v = e b * (others.map fun xj => (e x - e xj) / (e xi - e xj)).prod := by
  induction others generalizing b with
  | nil => cases h; simp
  | cons xj others ih =>
    obtain ⟨hne, hxi⟩ := not_or.mp (mt List.mem_cons.mpr hxi)
    have hdivisor : add xi xj ≠ 0 := mt add_eq_zero.mp hne
    obtain ⟨q, hq⟩ := div_ok standardTables (add x xj) hdivisor
    rw [lagrangeBasis_cons, hq] at h
    rw [ih hxi h, he.map_mult, he.map_div hdivisor hq, he.map_add_eq_sub, he.map_add_eq_sub, List.map_cons,
      List.prod_cons, mul_assoc]

/-- The basis term of a sample is the library's basis polynomial at the point. -/
theorem IsFieldMap.map_lagrangeBasis (x : Byte) {xs : List Byte} (hxs : xs.Nodup) {i : Nat} (hi : i < xs.length) :
    ∃ b, lagrangeBasis standardTables x xs[i] (xs.eraseIdx i) = .ok b ∧
      e b = (Lagrange.basis xs.toFinset e xs[i]).eval (e x) := by
  have hnotMem := notMem_eraseIdx_of_nodup hxs i hi
  have hothers : (xs.eraseIdx i).toFinset = xs.toFinset.erase xs[i] := by
    ext a
    simp [← hxs.erase_getElem i hi, hxs.mem_erase_iff]
  obtain ⟨b, hb⟩ := lagrangeBasis_ok standardTables x hnotMem
  refine ⟨b, hb, ?_⟩
  rw [he.map_lagrangeBasis_fold x hnotMem hb, he.map_one, one_mul,
    ← List.prod_toFinset _ (hxs.sublist (List.eraseIdx_sublist _ _)), hothers, Lagrange.basis, Polynomial.eval_prod]
  refine Finset.prod_congr rfl fun xj _ => ?_
  simp [Lagrange.basisDivisor, div_eq_inv_mul]

/-- The sum of the terms of some samples, each at its place among the x samples, from any byte upward. -/
theorem IsFieldMap.map_interpolate_fold (x : Byte) {xs : List Byte} (hxs : xs.Nodup)
    {samples : List ((Byte × Byte) × Nat)} (hsamples : ∀ p ∈ samples, xs[p.2]? = some p.1.1) (r : Byte) :
    ∃ v, samples.foldlM (interpolateStep standardTables xs x) r = .ok v ∧
      e v = e r + ((samples.map Prod.fst).map fun p => e p.2 * (Lagrange.basis xs.toFinset e p.1).eval (e x)).sum := by
  induction samples generalizing r with
  | nil => exact ⟨r, rfl, by simp⟩
  | cons p samples ih =>
    obtain ⟨hp, hsamples⟩ := List.forall_mem_cons.mp hsamples
    obtain ⟨hi, hpx⟩ := List.getElem?_eq_some_iff.mp hp
    obtain ⟨b, hb, hvalue⟩ := he.map_lagrangeBasis x hxs hi
    rw [hpx] at hb hvalue
    obtain ⟨v, hv, hsum⟩ := ih hsamples (add r (mult standardTables p.1.2 b))
    refine ⟨v, by rw [List.foldlM_cons, interpolateStep, hb]; exact hv, ?_⟩
    rw [hsum, add, he.map_xor, he.map_mult, hvalue, List.map_cons, List.map_cons, List.sum_cons, add_assoc]

/-- On distinct x samples `interpolateAt` is the value of the library's interpolating polynomial. -/
theorem IsFieldMap.map_interpolateAt (x : Byte) {xs : List Byte} (hxs : xs.Nodup) (g : Byte → Byte) :
    ∃ v, interpolateAt standardTables xs (xs.map g) x = .ok v ∧
      e v = (Lagrange.interpolate xs.toFinset e (fun a => e (g a))).eval (e x) := by
  have hsamples : xs.zip (xs.map g) = xs.map fun a => (a, g a) := by
    simpa using List.zip_map' (f := id) (g := g) (l := xs)
  have hplaces : ∀ p ∈ (xs.map fun a => (a, g a)).zipIdx, xs[p.2]? = some p.1.1 := by
    intro p hp
    have hplace := List.mem_zipIdx_iff_getElem?.mp hp
    rw [List.getElem?_map, Option.map_eq_some_iff] at hplace
    obtain ⟨a, ha, hpair⟩ := hplace
    rw [ha, ← hpair]
  obtain ⟨v, hv, hsum⟩ := he.map_interpolate_fold x hxs hplaces 0
  refine ⟨v, by rw [interpolateAt_eq_foldlM, hsamples]; exact hv, ?_⟩
  rw [hsum, he.map_zero, zero_add, List.zipIdx_map_fst, List.map_map, ← List.sum_toFinset _ hxs,
    Lagrange.interpolate_apply, Polynomial.eval_finsetSum]
  simp

end

/-- Through distinct x samples `interpolateAt` answers the value of every polynomial that passes through the samples and
has no more coefficients than there are samples (R121, G2). -/
theorem interpolateAt_polyValue (x : Byte) {xs coeffs : List Byte} (hxs : xs.Nodup)
    (hlen : coeffs.length ≤ xs.length) :
    interpolateAt standardTables xs (xs.map (polyValue coeffs)) x = .ok (polyValue coeffs x) := by
  obtain ⟨F, _, e, he⟩ := exists_isFieldMap
  obtain ⟨P, hdegree, hvalue⟩ := he.exists_polynomial coeffs
  obtain ⟨v, hv, heq⟩ := he.map_interpolateAt x hxs (polyValue coeffs)
  have hcard : P.degree < xs.toFinset.card :=
    hdegree.trans_le (by rw [List.toFinset_card_of_nodup hxs]; exact_mod_cast hlen)
  rw [← Lagrange.eq_interpolate_of_eval_eq _ he.injective.injOn hcard fun a _ => (hvalue a).symm, ← hvalue] at heq
  rw [hv, he.injective heq]

/-- At an x sample `interpolateAt` answers the sample's own y (R145). -/
theorem interpolateAt_of_sample {xs ys : List Byte} {x y : Byte} {k : Nat} (hxs : xs.Nodup)
    (hlen : ys.length = xs.length) (hx : xs[k]? = some x) (hy : ys[k]? = some y) :
    interpolateAt standardTables xs ys x = .ok y := by
  obtain ⟨F, _, e, he⟩ := exists_isFieldMap
  obtain ⟨g, rfl⟩ : ∃ g : Byte → Byte, ys = xs.map g :=
    ⟨fun x => ys.getD (xs.idxOf x) 0, List.ext_getElem (by simpa) fun i hi _ => by simp [hxs.idxOf_getElem, hi]⟩
  obtain rfl : g x = y := by simpa [hx] using hy
  obtain ⟨v, hv, heq⟩ := he.map_interpolateAt x hxs g
  rw [Lagrange.eval_interpolate_at_node _ he.injective.injOn (List.mem_toFinset.mpr (List.mem_of_getElem? hx))] at heq
  rw [hv, he.injective heq]

/-! ### A repeated x sample -/

theorem interpolateStep_fold_error (T : Tables) (xs : List Byte) (x : Byte) {samples : List ((Byte × Byte) × Nat)}
    (h : ∃ p ∈ samples, p.1.1 ∈ xs.eraseIdx p.2) (r : Byte) :
    samples.foldlM (interpolateStep T xs x) r = .error .divisionByZero := by
  induction samples generalizing r with
  | nil => simp at h
  | cons p samples ih =>
    rw [List.foldlM_cons, interpolateStep]
    by_cases hp : p.1.1 ∈ xs.eraseIdx p.2
    · rw [lagrangeBasis_error T x hp]
      rfl
    · obtain ⟨b, hb⟩ := lagrangeBasis_ok T x hp
      rw [hb]
      exact ih (by simpa [hp] using h) _

/-- A repeated x sample is a division by zero, whatever the point and the y samples (R121). -/
theorem interpolateAt_of_repeated (T : Tables) {xs ys : List Byte} (x : Byte) (hlen : ys.length = xs.length) {j k : Nat}
    (hjk : j < k) (hk : k < xs.length) (h : xs[j] = xs[k]) :
    interpolateAt T xs ys x = .error .divisionByZero := by
  rw [interpolateAt_eq_foldlM]
  refine interpolateStep_fold_error T xs x ⟨((xs[k], ys[k]), k), ?_, ?_⟩ _
  · simp [List.mem_zipIdx_iff_getElem?, hk, hlen]
  · exact List.mem_eraseIdx_iff_getElem.mpr ⟨j, by omega, by omega, h⟩

end Sys2Proof.Machine
end

section
/-! PROOFS. INTERP: its two checks, and its value or the division by zero on the samples it reads (R121, R122). -/

namespace Sys2Proof.Machine

theorem State.readBytes_eq_map_of_forall {s : State} {base base' n : Nat} {f : Byte → Byte}
    (h : ∀ k < n, f (s.bufByte (base + k)) = s.bufByte (base' + k)) :
    s.readBytes base' n = (s.readBytes base n).map f := by
  rw [State.readBytes, State.readBytes, List.map_map]
  exact List.map_congr_left fun k hk => (h k (List.mem_range.mp hk)).symm

section
variable {s : State} (fd fa : FReg) (hcount : 2 ≤ s.nsamp.toNat)
include hcount

theorem exec_interp_badAddress
    (h : 65536 < s.xsbase.toNat + s.nsamp.toNat ∨ 65536 < s.ysbase.toNat + s.nsamp.toNat) :
    exec (.interp fd fa) s = .next (s.withError (encode (.interp fd fa)) (Cause.illegal .badAddress).status) := by
  rw [← regionInRange_eq_false_iff, ← regionInRange_eq_false_iff, ← Bool.and_eq_false_iff] at h
  rw [← runCommand_error_eq_withError]
  simp [exec, execInterp, hcount.not_gt, h]

variable (hxs : s.xsbase.toNat + s.nsamp.toNat ≤ 65536) (hys : s.ysbase.toNat + s.nsamp.toNat ≤ 65536)
include hxs hys

theorem exec_interp_of_ok {v : Byte}
    (h : interpolateAt s.tables (s.readBytes s.xsbase.toNat s.nsamp.toNat) (s.readBytes s.ysbase.toNat s.nsamp.toNat)
      (s.getF fa) = .ok v) : exec (.interp fd fa) s = .next (s.setF fd v) := by
  simp [exec, execInterp, hcount.not_gt, regionInRange_iff.mpr hxs, regionInRange_iff.mpr hys, h]

theorem exec_interp_of_error {c : Cause}
    (h : interpolateAt s.tables (s.readBytes s.xsbase.toNat s.nsamp.toNat) (s.readBytes s.ysbase.toNat s.nsamp.toNat)
      (s.getF fa) = .error c) :
    exec (.interp fd fa) s = .next (s.withError (encode (.interp fd fa)) c.status) := by
  rw [← runCommand_error_eq_withError]
  simp [exec, execInterp, hcount.not_gt, regionInRange_iff.mpr hxs, regionInRange_iff.mpr hys, h]

end

/-- Settles O47: the count is checked before the regions. -/
theorem interpRefusals : Obligations.InterpRefusals := by
  unfold Obligations.InterpRefusals
  intro fd fa s
  exact ⟨exec_interp_badLength fd fa, exec_interp_badAddress fd fa⟩

/-- Settles O46: a repeated sample is a division by zero, and 0x0203 is the STATUS word of that error. -/
theorem interpDuplicateIsFatal : Obligations.InterpDuplicateIsFatal := by
  unfold Obligations.InterpDuplicateIsFatal
  rintro fd fa s hcount hxs hys ⟨j, k, hjk, hk, hrepeated⟩
  have hstatus : Cause.divisionByZero.status = 0x0203 := by decide
  rw [← hstatus]
  refine exec_interp_of_error fd fa hcount hxs hys ?_
  refine interpolateAt_of_repeated s.tables _ (by simp) hjk (by simpa) ?_
  rwa [State.getElem_readBytes, State.getElem_readBytes]

/-- Settles O45: the value exists, and it is that of every polynomial through the samples. -/
theorem interpResult : Obligations.InterpResult := by
  unfold Obligations.InterpResult
  intro fd fa s htables hcount hxs hys hnodup
  obtain ⟨v, hv⟩ :=
    interpolateAt_ok s.tables (s.readBytes s.ysbase.toNat s.nsamp.toNat) (s.getF fa) hnodup
  refine ⟨_, exec_interp_of_ok fd fa hcount hxs hys hv, s.setF_eq fd v, fun coeffs hlen hthrough => ?_,
    fun _ hr => s.getF_setF_other v hr⟩
  rw [htables, State.readBytes_eq_map_of_forall hthrough, interpolateAt_polyValue _ hnodup (by simpa)] at hv
  rw [State.getF_setF_same, Except.ok.inj hv]

end Sys2Proof.Machine
end

section
/-! PROOFS. `combine` and COMBINE that pass their checks: one interpolation at 0 for each byte place (R140, R141). -/

namespace Sys2Proof.Machine

/-! ### `combine` (R140, R142, R144) -/

/-- The bytes at one place of shares that all have it (R140). -/
theorem column_map {α : Type} {f : α → Share} {g : α → Byte} {l : List α} {i : Nat}
    (h : ∀ a ∈ l, (f a)[i]? = some (g a)) : column (l.map f) i = l.map g := by
  rw [column, List.filterMap_map, ← List.filterMap_eq_map]
  exact List.filterMap_congr h

theorem column_eq_map {shares : List Share} {i : Nat} (h : ∀ sh ∈ shares, i < sh.length) :
    column shares i = shares.map fun sh => sh.getD i 0 := by
  have hget : ∀ sh ∈ shares, (id sh)[i]? = some (sh.getD i 0) := fun sh hsh => by simp [h sh hsh]
  simpa using column_map hget

/-- On distinct coordinates steps 2 and 3 of `combine` answer one interpolation at 0 per byte place. -/
theorem combineShares_of_nodup (T : Tables) {len : Nat} {shares : List Share}
    (h : (column shares (len - 1)).Nodup) :
    ∃ secret, combineShares T len shares = .ok secret ∧ secret.length = len - 1 ∧
      ∀ (i : Nat) (hi : i < secret.length),
        interpolateAt T (column shares (len - 1)) (column shares i) 0x00 = .ok secret[i] := by
  obtain ⟨secret, hsecret, hlen, hget⟩ :=
    mapM_ok (fun i => interpolateAt T (column shares (len - 1)) (column shares i) 0x00) (List.range (len - 1))
      fun i _ => interpolateAt_ok T _ _ h
  rw [List.length_range] at hlen
  refine ⟨secret, by rw [combineShares, if_pos h, hsecret], hlen, fun i hi => ?_⟩
  have hplace := hget i (by simpa [← hlen]) hi
  rwa [List.getElem_range] at hplace

/-- Steps 2 and 3 of `combine` succeed on distinct coordinates only. -/
theorem combineShares_eq_ok {T : Tables} {len : Nat} {shares : List Share} {secret : List Byte}
    (h : combineShares T len shares = .ok secret) :
    (column shares (len - 1)).Nodup ∧ secret.length = len - 1 ∧
      ∀ (i : Nat) (hi : i < secret.length),
        interpolateAt T (column shares (len - 1)) (column shares i) 0x00 = .ok secret[i] := by
  by_cases hnodup : (column shares (len - 1)).Nodup
  · obtain ⟨secret', hsecret, hspec⟩ := combineShares_of_nodup T hnodup
    obtain rfl : secret' = secret := Except.ok.inj (hsecret.symm.trans h)
    exact ⟨hnodup, hspec⟩
  · rw [combineShares, if_neg hnodup] at h
    cases h

theorem validateLengths_cons_eq_none_iff (first : Nat) (others : List Nat) :
    validateLengths (first :: others) = none ↔ 2 ≤ first ∧ ∀ len ∈ others, len = first := by
  rw [validateLengths]
  split
  · next h => simp [h.not_ge]
  · next h => simp [not_lt.mp h]

/-- `combine` succeeds on at least 2 shares of one length, at least 2, where steps 2 and 3 do (R140, R142). -/
theorem combine_eq_ok_iff {T : Tables} {shares : List Share} {secret : List Byte} :
    combine T shares = .ok secret ↔
      2 ≤ shares.length ∧ ∃ len, 2 ≤ len ∧ (∀ sh ∈ shares, sh.length = len) ∧
        combineShares T len shares = .ok secret := by
  match shares with
  | [] => simp [combine]
  | [_] => simp [combine]
  | first :: second :: others =>
    have hlengths := validateLengths_cons_eq_none_iff first.length ((second :: others).map List.length)
    rw [← List.map_cons] at hlengths
    constructor
    · intro h
      simp only [combine] at h
      split at h
      · cases h
      · next hnone =>
        obtain ⟨hlong, hsame⟩ := hlengths.mp hnone
        exact ⟨by simp, first.length, hlong, List.forall_mem_cons.mpr ⟨rfl, List.forall_mem_map.mp hsame⟩, h⟩
    · rintro ⟨-, len, hlong, hsame, h⟩
      obtain ⟨rfl, hsame⟩ := List.forall_mem_cons.mp hsame
      rw [combine, hlengths.mpr ⟨hlong, List.forall_mem_map.mpr hsame⟩]
      exact h

/-- Settles O59: the share's place among the coordinates is a sample at 0, so each interpolation at 0 answers the
share's own byte. -/
theorem zeroCoordinateShareIsSecret : Obligations.ZeroCoordinateShareIsSecret := by
  unfold Obligations.ZeroCoordinateShareIsSecret
  intro shares ys secret hmem h
  obtain ⟨-, len, hlong, hlengths, hok⟩ := combine_eq_ok_iff.mp h
  obtain ⟨hnodup, hlen, hvalue⟩ := combineShares_eq_ok hok
  obtain ⟨k, hk, hshare⟩ := List.mem_iff_getElem.mp hmem
  have hys : ys.length + 1 = len := by simpa using hlengths _ hmem
  have hcolumn : ∀ i < len, column shares i = shares.map fun sh => sh.getD i 0 :=
    fun i hi => column_eq_map fun sh hsh => (hlengths sh hsh).symm ▸ hi
  have hplace : ∀ i < len, (column shares i)[k]? = some ((ys ++ [0x00]).getD i 0) := fun i hi => by
    rw [hcolumn i hi, List.getElem?_map, List.getElem?_eq_getElem hk, hshare]
    rfl
  refine List.ext_getElem (by omega) fun i hi hi' => ?_
  have hx : (column shares (len - 1))[k]? = some 0x00 := by
    rw [hplace _ (by omega), ← hys]
    simp
  have hy : (column shares i)[k]? = some ys[i] := by
    rw [hplace _ (by omega)]
    simp [List.getElem?_append_left hi', hi']
  have hsample := interpolateAt_of_sample hnodup (by simp [hcolumn, show i < len by omega, show len - 1 < len by omega])
    hx hy
  exact Except.ok.inj ((hvalue i hi).symm.trans hsample)

/-! ### COMBINE (R141) -/

theorem checkCombineRegions_eq_none {secbase descbase n len : Nat} {addr : Nat → Nat} (hlen : 2 ≤ len) (hn : 0 < n)
    (hshares : ∀ k < n, addr k + len ≤ 65536) (hout : secbase + (len - 1) ≤ 65536)
    (hapart : ∀ k < n, Apart secbase (len - 1) (addr k) len) (htable : Apart secbase (len - 1) descbase (4 * n)) :
    checkCombineRegions secbase descbase n len ((List.range n).map addr) = none := by
  have hrange : ((List.range n).map addr).all (fun a => regionInRange a len) = true := by
    simpa only [List.all_map, List.all_eq_true, List.mem_range, Function.comp_apply, regionInRange_iff]
  have hnolap : ((List.range n).map addr).any (fun a => regionsOverlap secbase (len - 1) a len) = false := by
    simpa only [List.any_map, List.any_eq_false, List.mem_range, Function.comp_apply, Bool.not_eq_true,
      regionsOverlap_eq_false_iff (show 0 < len - 1 by omega) (show 0 < len by omega)]
  rw [checkCombineRegions, hrange, regionInRange_iff.mpr hout, if_neg (by decide), hnolap,
    (regionsOverlap_eq_false_iff (by omega) (by omega)).mpr htable]
  rfl

section
variable {s : State} {len : Nat}

/-- The shares that COMBINE reads, each of length `len` (R141). -/
def State.storedShares (s : State) (len : Nat) : List Share :=
  (List.range s.nshares.toNat).map fun k => s.readBytes (s.descriptor k).addr len

theorem State.column_storedShares (s : State) {i : Nat} (hi : i < len) :
    column (s.storedShares len) i = (List.range s.nshares.toNat).map (s.shareByte · i) :=
  column_map fun k _ => by simp [State.readBytes, State.shareByte, hi]

theorem State.CombineAccepted.nodup_coordinates (h : s.CombineAccepted len) :
    (column (s.storedShares len) (len - 1)).Nodup := by
  have hlong : 2 ≤ len := h.long
  rw [s.column_storedShares (by omega)]
  refine List.Nodup.map_on (fun j hj k hk heq => ?_) List.nodup_range
  by_contra hne
  exact h.distinct j (List.mem_range.mp hj) k (List.mem_range.mp hk) hne heq

theorem exec_combine_of_regions (h : s.CombineRegions len) {secret : List Byte}
    (hsecret : combineShares s.tables len (s.storedShares len) = .ok secret) :
    exec .combine s = .next ((s.writeBytes s.secbase.toNat secret).writeCR .seclen (BitVec.ofNat 16 (len - 1))) := by
  have hregions := checkCombineRegions_eq_none h.long h.nshares_pos h.sharesInRange h.outputInRange
    h.apartFromShares h.apartFromTable
  rw [State.storedShares] at hsecret
  simp [exec, execCombine, h.count.not_gt, regionInRange_iff.mpr h.tableInRange, s.map_descriptors,
    h.validateLengths_eq_none, h.descriptor_zero_len, hregions, hsecret]

end

/-- Settles O52: each byte of the secret is the interpolation at 0 of its place's points. -/
theorem combineWritesSecret : Obligations.CombineWritesSecret := by
  unfold Obligations.CombineWritesSecret
  intro s len htables h
  obtain ⟨secret, hsecret, hlen, hvalue⟩ := combineShares_of_nodup s.tables h.nodup_coordinates
  have hlong : 2 ≤ len := h.long
  have hfits : (s.descriptor 0).addr + len ≤ 65536 := h.sharesInRange 0 h.nshares_pos
  refine ⟨_, exec_combine_of_regions h.toCombineRegions hsecret, by rw [State.writeBytes_eq]; rfl,
    Nat.mod_eq_of_lt (by omega), fun a ha => ?outside, fun i hi coeffs hcoeffs hthrough => ?value⟩
  case outside =>
    rw [State.bufByte_writeCR, State.bufByte_writeBytes_outside _ _ (by rwa [hlen])]
  case value =>
    have hi' : i < secret.length := by rwa [hlen]
    have hys : column (s.storedShares len) i =
        (column (s.storedShares len) (len - 1)).map (polyValue coeffs) := by
      rw [s.column_storedShares (by omega), s.column_storedShares (by omega), List.map_map]
      exact List.map_congr_left fun k hk => (hthrough k (List.mem_range.mp hk)).symm
    have hpoly := interpolateAt_polyValue 0x00 h.nodup_coordinates (coeffs := coeffs)
      (by simpa [s.column_storedShares (show len - 1 < len by omega)])
    rw [← hys, ← htables, hvalue i hi'] at hpoly
    rw [State.bufByte_writeCR, State.bufByte_writeBytes_inside _ _ _ hi' (by rw [hlen]; exact h.outputInRange),
      Except.ok.inj hpoly]

end Sys2Proof.Machine
end

section
/-! PROOFS. What `combine` returns depends on the points of each byte place only, not on their order (R120, R140). -/

namespace Sys2Proof.Machine

/-- Steps 2 and 3 of `combine` answer `secret` exactly where the coordinates are distinct and each byte of `secret` is
the interpolation at 0 of its place (R140, R144). -/
theorem combineShares_eq_ok_iff {T : Tables} {len : Nat} {shares : List Share} {secret : List Byte} :
    combineShares T len shares = .ok secret ↔
      (column shares (len - 1)).Nodup ∧ secret.length = len - 1 ∧
        ∀ (i : Nat) (hi : i < secret.length),
          interpolateAt T (column shares (len - 1)) (column shares i) 0x00 = .ok secret[i] := by
  refine ⟨combineShares_eq_ok, fun ⟨hnodup, hlen, hvalue⟩ => ?_⟩
  obtain ⟨secret', hsecret', hlen', hvalue'⟩ := combineShares_of_nodup T hnodup
  have heq : secret' = secret := List.ext_getElem (hlen'.trans hlen.symm) fun i hi' hi =>
    Except.ok.inj ((hvalue' i hi').symm.trans (hvalue i hi))
  rw [hsecret', heq]

/-! ### The order of the shares -/

/-- The order of the samples does not change the interpolation: it is a sum over the set of them (R120). -/
theorem interpolateAt_perm (x : Byte) {xs xs' : List Byte} (hperm : xs.Perm xs') (hxs : xs.Nodup) (g : Byte → Byte) :
    interpolateAt standardTables xs' (xs'.map g) x = interpolateAt standardTables xs (xs.map g) x := by
  obtain ⟨F, _, e, he⟩ := exists_isFieldMap
  obtain ⟨v, hv, hvalue⟩ := he.map_interpolateAt x hxs g
  obtain ⟨v', hv', hvalue'⟩ := he.map_interpolateAt x (hperm.nodup_iff.mp hxs) g
  rw [← List.toFinset_eq_of_perm _ _ hperm, ← hvalue] at hvalue'
  rw [hv, hv', he.injective hvalue']

/-- What is distinct on a list determines everything else that is read of its elements. -/
theorem exists_eq_comp_of_nodup_map {α β γ : Type} [Nonempty α] {f : α → β} {l : List α} (h : (l.map f).Nodup)
    (y : α → γ) : ∃ g : β → γ, ∀ a ∈ l, y a = g (f a) := by
  have hinj : Set.InjOn f {a | a ∈ l} := fun _ ha _ hb => List.inj_on_of_nodup_map h ha hb
  exact ⟨y ∘ Function.invFunOn f {a | a ∈ l}, fun a ha => (congrArg y (hinj.leftInvOn_invFunOn ha)).symm⟩

/-- Where coordinates are distinct, each byte of a share is a function of its coordinate, the same one for every list
of those shares (R140). -/
theorem exists_column_eq_map {len i : Nat} {shares : List Share} (hi : i < len)
    (hlengths : ∀ sh ∈ shares, sh.length = len) (hnodup : (column shares (len - 1)).Nodup) :
    ∃ g : Byte → Byte, ∀ l ⊆ shares, column l i = (column l (len - 1)).map g := by
  have hcolumn : ∀ l ⊆ shares, ∀ j < len, column l j = l.map fun sh => sh.getD j 0 :=
    fun l hl j hj => column_eq_map fun sh hsh => (hlengths sh (hl hsh)).symm ▸ hj
  rw [hcolumn shares (List.Subset.refl _) _ (by omega)] at hnodup
  obtain ⟨g, hg⟩ := exists_eq_comp_of_nodup_map hnodup fun sh : Share => sh.getD i 0
  refine ⟨g, fun l hl => ?_⟩
  rw [hcolumn l hl i hi, hcolumn l hl _ (by omega), List.map_map]
  exact List.map_congr_left fun sh hsh => hg sh (hl hsh)

/-- Steps 2 and 3 of `combine` do not depend on the order of the shares (R140). -/
theorem combineShares_perm {len : Nat} {shares shares' : List Share} {secret : List Byte}
    (hperm : shares.Perm shares') (hlengths : ∀ sh ∈ shares, sh.length = len)
    (h : combineShares standardTables len shares = .ok secret) :
    combineShares standardTables len shares' = .ok secret := by
  obtain ⟨hnodup, hlen, hvalue⟩ := combineShares_eq_ok_iff.mp h
  have hxs : (column shares (len - 1)).Perm (column shares' (len - 1)) := hperm.filterMap _
  refine combineShares_eq_ok_iff.mpr ⟨hxs.nodup_iff.mp hnodup, hlen, fun i hi => ?_⟩
  obtain ⟨g, hg⟩ := exists_column_eq_map (show i < len by omega) hlengths hnodup
  rw [← hvalue i hi, hg shares' hperm.symm.subset, hg shares (List.Subset.refl _), interpolateAt_perm _ hxs hnodup]

/-- Settles O58: the checks of `combine` and its interpolations speak of the shares in any order. -/
theorem combineIgnoresOrder : Obligations.CombineIgnoresOrder := by
  unfold Obligations.CombineIgnoresOrder
  intro shares shares' secret hperm h
  obtain ⟨hcount, len, hlong, hlengths, hok⟩ := combine_eq_ok_iff.mp h
  exact combine_eq_ok_iff.mpr ⟨hperm.length_eq ▸ hcount, len, hlong, fun sh hsh => hlengths sh (hperm.mem_iff.mpr hsh),
    combineShares_perm hperm hlengths hok⟩

end Sys2Proof.Machine
end

section
/-! PROOFS. The shares of one `split`: their shape (R134, R136), and the secret that `combine` gets back from at least
threshold of them (R146). -/

namespace Sys2Proof.Machine

/-! ### The shape of the shares -/

theorem validateSplit_eq_none_iff {threshold parts secretLength : Nat} :
    validateSplit threshold parts secretLength = none ↔
      2 ≤ threshold ∧ threshold ≤ 255 ∧ threshold ≤ parts ∧ parts ≤ 255 ∧ 1 ≤ secretLength := by
  unfold validateSplit
  split_ifs <;> simp <;> omega

/-- `split` answers shares exactly where its constraints hold, and they are those of its steps 2 to 4 (R130). -/
theorem split_eq_ok_iff {T : Tables} {secret : List Byte} {parts threshold : Nat} {r : RandomSource}
    {made : List Share × RandomSource} :
    split T secret parts threshold r = .ok made ↔
      validateSplit threshold parts secret.length = none ∧ splitShares T secret parts threshold r = made := by
  rw [split]
  split
  · next h => simp [h]
  · next h => simp [h]

section
variable (T : Tables) (polys : List Poly) (xs : List Byte)

/-- The trailing bytes of shares are their coordinates (R136). -/
theorem column_shareAt_coordinate : column (xs.map (shareAt T polys)) polys.length = xs :=
  (column_map (g := id) fun x _ => by
    rw [List.getElem?_eq_getElem (by simp), getElem_shareAt_coordinate, id]).trans (List.map_id xs)

theorem column_shareAt_value {i : Nat} (hi : i < polys.length) :
    column (xs.map (shareAt T polys)) i = xs.map (evaluate T polys[i]) :=
  column_map fun x _ => by rw [List.getElem?_eq_getElem (by simp; omega), getElem_shareAt_value]

end

/-- Settles O55: the trailing bytes are the coordinates drawn, which are distinct and nonzero. -/
theorem shareShape : Obligations.ShareShape := by
  unfold Obligations.ShareShape
  intro T secret parts threshold r r' shares h
  obtain ⟨hvalid, hmade⟩ := split_eq_ok_iff.mp h
  obtain ⟨-, -, -, hparts, -⟩ := validateSplit_eq_none_iff.mp hvalid
  obtain ⟨rfl, -⟩ := Prod.mk.inj hmade
  have hlen := length_makePolynomials (threshold - 1) secret r.randPerm.2
  have hcount : (coordinates r.randPerm.1 parts).length = parts := length_coordinates _ hparts
  rw [← hlen, column_shareAt_coordinate]
  refine ⟨by rw [List.length_map, hcount], ?_, hcount, coordinates_nodup _ _, fun hmem => ?_⟩
  · exact List.forall_mem_map.mpr fun x _ => length_shareAt ..
  · exact ne_zero_of_mem_coordinates hmem rfl

/-! ### The secret back from the shares -/

/-- Steps 2 and 3 of `combine` on the shares of some polynomials at distinct coordinates, no fewer than the
coefficients of each, give the polynomials' intercepts (R146, G2). -/
theorem combineShares_shareAt {polys : List Poly} {xs : List Byte} (hxs : xs.Nodup)
    (h : ∀ p ∈ polys, p.coeffs.length ≤ xs.length) :
    combineShares standardTables (polys.length + 1) (xs.map (shareAt standardTables polys)) =
      .ok (polys.map Poly.intercept) := by
  refine combineShares_eq_ok_iff.mpr ?_
  rw [Nat.add_sub_cancel, column_shareAt_coordinate]
  refine ⟨hxs, List.length_map _, fun i hi => ?_⟩
  rw [List.length_map] at hi
  rw [column_shareAt_value _ _ _ hi, funext (evaluate_standard polys[i]),
    interpolateAt_polyValue _ hxs (h _ (List.getElem_mem hi)), ← evaluate_standard, List.getElem_map]
  rfl

/-- Each polynomial of `split` has `threshold` coefficients (R130). -/
theorem length_coeffs_makePolynomials {threshold : Nat} (h : 1 ≤ threshold) {secret : List Byte} {r : RandomSource}
    {p : Poly} (hp : p ∈ (makePolynomials (threshold - 1) secret r).1) : p.coeffs.length = threshold := by
  rw [Poly.coeffs, List.length_cons, (makePolynomials_higher hp).1, Nat.sub_add_cancel h]

/-- Settles O56: the subset is the shares of the drawn polynomials at some coordinates, and the intercepts of those
polynomials are the secret. -/
theorem combineOfSplitIsSecret : Obligations.CombineOfSplitIsSecret := by
  unfold Obligations.CombineOfSplitIsSecret
  intro secret parts threshold r r' shares subset h hnodup hsubset hcount
  obtain ⟨hvalid, hmade⟩ := split_eq_ok_iff.mp h
  obtain ⟨hlow, -, -, -, hsecret⟩ := validateSplit_eq_none_iff.mp hvalid
  obtain ⟨rfl, -⟩ := Prod.mk.inj hmade
  have hlen := length_makePolynomials (threshold - 1) secret r.randPerm.2
  have hintercepts := makePolynomials_intercepts (threshold - 1) secret r.randPerm.2
  have hcoeffs := fun p => length_coeffs_makePolynomials (p := p) (secret := secret) (r := r.randPerm.2)
    (one_le_two.trans hlow)
  generalize (makePolynomials (threshold - 1) secret r.randPerm.2).1 = polys at hsubset hlen hintercepts hcoeffs
  obtain ⟨xs, rfl⟩ : subset ∈ Set.range (List.map (shareAt standardTables polys)) := by
    rw [Set.range_list_map]
    exact fun sh hsh => (List.mem_map.mp (hsubset sh hsh)).imp fun _ => And.right
  rw [List.length_map] at hcount
  refine combine_eq_ok_iff.mpr ⟨by rw [List.length_map]; omega, polys.length + 1, by omega,
    List.forall_mem_map.mpr fun x _ => length_shareAt .., ?_⟩
  rw [combineShares_shareAt (hnodup.of_map _) fun p hp => (hcoeffs p hp).trans_le hcount, hintercepts]

end Sys2Proof.Machine
end

section
/-! PROOFS. SPLIT's checks, each with the error it raises (R132, R133). -/

namespace Sys2Proof.Machine

/-- Settles O50: each constraint that fails is the first one where those before it hold. -/
theorem splitValidationOrder : Obligations.SplitValidationOrder := by
  unfold Obligations.SplitValidationOrder
  intro s
  refine ⟨fun hlow => exec_split_invalid (c := .threshLow) ?_, fun hhigh => exec_split_invalid (c := .threshHigh) ?_,
    fun hlow hhigh hlt => exec_split_invalid (c := .partsLtThresh) ?_,
    fun hlow hhigh hge hparts => exec_split_invalid (c := .partsHigh) ?_,
    fun hlow hge hparts hsecret => exec_split_invalid (c := .emptySecret) ?_⟩
  · rw [validateSplit, if_pos hlow]
  · rw [validateSplit, if_neg (by omega), if_pos hhigh]
  · rw [validateSplit, if_neg (by omega), if_neg (by omega), if_pos hlt]
  · rw [validateSplit, if_neg (by omega), if_neg (by omega), if_neg (by omega), if_pos hparts]
  · rw [validateSplit, if_neg (by omega), if_neg (by omega), if_neg (by omega), if_neg (by omega), if_pos hsecret]

section
variable {s : State} (h : s.SplitValid)
include h

theorem exec_split_badAddress
    (hfar : 65536 < s.secbase.toNat + s.seclen.toNat ∨
      65536 < s.shrbase.toNat + s.parts.toNat * (s.seclen.toNat + 1)) :
    exec .split s = .next (s.withError (encode .split) (Cause.illegal .badAddress).status) := by
  rw [← regionInRange_eq_false_iff, ← regionInRange_eq_false_iff, ← Bool.and_eq_false_iff] at hfar
  rw [← runCommand_error_eq_withError]
  simp [exec, execSplit, h.validateSplit_eq_none, hfar]

theorem exec_split_overlap (hsecret : s.secbase.toNat + s.seclen.toNat ≤ 65536)
    (hshares : s.shrbase.toNat + s.parts.toNat * (s.seclen.toNat + 1) ≤ 65536)
    (hmeet : ¬ Apart s.secbase.toNat s.seclen.toNat s.shrbase.toNat (s.parts.toNat * (s.seclen.toNat + 1))) :
    exec .split s = .next (s.withError (encode .split) (Cause.illegal .overlap).status) := by
  have hlen : 0 < s.seclen.toNat := h.secretNonempty
  have hparts : 0 < s.parts.toNat := two_pos.trans_le (h.threshLow.trans h.partsGeThresh)
  have hoverlap := (regionsOverlap_iff hlen (by positivity)).mpr hmeet
  rw [← runCommand_error_eq_withError]
  simp [exec, execSplit, h.validateSplit_eq_none, regionInRange_iff.mpr hsecret, regionInRange_iff.mpr hshares,
    hoverlap]

end

/-- Settles O51: the ranges are checked before the regions are compared. -/
theorem splitRegionChecks : Obligations.SplitRegionChecks := by
  unfold Obligations.SplitRegionChecks
  intro s h
  exact ⟨exec_split_badAddress h, exec_split_overlap h⟩

end Sys2Proof.Machine
end

section
/-! PROOFS. COMBINE past its region checks: a repeated coordinate raises (R144), and the shares of a SPLIT give its
secret back (R146). -/

namespace Sys2Proof.Machine

theorem exec_combine_of_repeated {s : State} {len : Nat} (h : s.CombineRegions len)
    (hrepeated : ¬ (column (s.storedShares len) (len - 1)).Nodup) :
    exec .combine s = .next (s.withError (encode .combine) Cause.duplicateShare.status) := by
  have hregions := checkCombineRegions_eq_none h.long h.nshares_pos h.sharesInRange h.outputInRange
    h.apartFromShares h.apartFromTable
  have herror : combineShares s.tables len (s.storedShares len) = .error .duplicateShare := if_neg hrepeated
  rw [State.storedShares] at herror
  rw [← runCommand_error_eq_withError]
  simp [exec, execCombine, h.count.not_gt, regionInRange_iff.mpr h.tableInRange, s.map_descriptors,
    h.validateLengths_eq_none, h.descriptor_zero_len, hregions, herror]

/-- Settles O54: two equal trailing bytes repeat an entry of the coordinates that are checked. -/
theorem combineDuplicateRaises : Obligations.CombineDuplicateRaises := by
  unfold Obligations.CombineDuplicateRaises
  rintro s len h ⟨j, k, hjk, hk, hrepeated⟩
  refine exec_combine_of_repeated h fun hnodup => ?_
  have hlong : 2 ≤ len := h.long
  rw [s.column_storedShares (by omega)] at hnodup
  exact hjk.ne (List.inj_on_of_nodup_map hnodup (List.mem_range.mpr (hjk.trans hk)) (List.mem_range.mpr hk) hrepeated)

/-! ### SPLIT, then COMBINE -/

theorem State.intercepts_madePolynomials (s : State) :
    s.madePolynomials.map Poly.intercept = s.readBytes s.secbase.toNat s.seclen.toNat :=
  makePolynomials_intercepts ..

/-- Where every stored share is, byte for byte, a share that SPLIT made in `s` and left in `t`, the stored shares are
those of the drawn polynomials at the coordinates picked (R51, R136). -/
theorem State.storedShares_eq_map_shareAt {s t u : State} (h : s.SplitAccepted) (hsplit : exec .split s = .next t)
    {pick : Nat → Nat}
    (hpick : ∀ k < u.nshares.toNat, pick k < s.parts.toNat ∧
      (u.descriptor k).addr = s.shrbase.toNat + pick k * (s.seclen.toNat + 1))
    (hkept : ∀ a, s.shrbase.toNat ≤ a → a < s.shrbase.toNat + s.parts.toNat * (s.seclen.toNat + 1) →
      u.bufByte a = t.bufByte a) :
    u.storedShares (s.seclen.toNat + 1) =
      ((List.range u.nshares.toNat).map fun k => s.madeCoordinates.getD (pick k) 0).map
        (shareAt s.tables s.madePolynomials) := by
  obtain rfl := Host.Outcome.next.inj ((exec_split_of_accepted h).symm.trans hsplit)
  rw [State.storedShares, List.map_map]
  refine List.map_congr_left fun k hk => ?_
  obtain ⟨hlt, haddr⟩ := hpick k (List.mem_range.mp hk)
  have hlt' : pick k < s.madeCoordinates.length := by rwa [s.length_madeCoordinates h]
  have hend : pick k * (s.seclen.toNat + 1) + (s.seclen.toNat + 1) ≤ s.parts.toNat * (s.seclen.toNat + 1) := by
    rw [← Nat.succ_mul]
    exact Nat.mul_le_mul_right _ hlt
  refine List.ext_getElem (by simp) fun i hi hi' => ?_
  rw [State.length_readBytes] at hi
  rw [State.getElem_readBytes, haddr, hkept _ (by omega) (by omega), s.bufByte_madeShares h hlt' (by simpa using hi)]
  simp [hlt']

/-- Different picks from distinct coordinates are distinct. -/
theorem State.nodup_pickedCoordinates {s : State} (h : s.SplitAccepted) {n : Nat} {pick : Nat → Nat}
    (hpick : ∀ k < n, pick k < s.parts.toNat) (hinj : ∀ j < n, ∀ k < n, pick j = pick k → j = k) :
    ((List.range n).map fun k => s.madeCoordinates.getD (pick k) 0).Nodup := by
  refine List.Nodup.map_on (fun j hj k hk heq => ?_) List.nodup_range
  rw [List.mem_range] at hj hk
  have hlt : ∀ k < n, pick k < s.madeCoordinates.length := fun k hk => by
    rw [s.length_madeCoordinates h]
    exact hpick k hk
  rw [List.getD_eq_getElem _ _ (hlt j hj), List.getD_eq_getElem _ _ (hlt k hk)] at heq
  exact hinj j hj k hk ((coordinates_nodup _ _).getElem_inj_iff.mp heq)

/-- Settles O57: the stored shares are those of the polynomials SPLIT drew at distinct coordinates, and the intercepts
of those polynomials are the secret. -/
theorem splitThenCombineRestoresSecret : Obligations.SplitThenCombineRestoresSecret := by
  unfold Obligations.SplitThenCombineRestoresSecret
  intro s t u pick hs h hsplit hu hregions hcount hpick hinj hkept
  have hthresh : 2 ≤ s.thresh.toNat := h.threshLow
  have hstored := State.storedShares_eq_map_shareAt h hsplit hpick hkept
  have hnodup := State.nodup_pickedCoordinates h (fun k hk => (hpick k hk).1) hinj
  have hcoeffs : ∀ p ∈ s.madePolynomials, p.coeffs.length = s.thresh.toNat :=
    fun p => length_coeffs_makePolynomials (by omega)
  have hsecret := combineShares_shareAt hnodup fun p hp => (hcoeffs p hp).trans_le (by simpa using hcount)
  rw [hs] at hstored
  rw [s.length_madePolynomials, s.intercepts_madePolynomials, ← hstored, ← hu] at hsecret
  refine ⟨_, exec_combine_of_regions hregions hsecret, BitVec.ofNat_toNat .., fun i hi => ?_⟩
  have hout : u.secbase.toNat + (s.readBytes s.secbase.toNat s.seclen.toNat).length ≤ Config.bufSize := by
    rw [State.length_readBytes]
    exact hregions.outputInRange
  rw [State.bufByte_writeCR, State.bufByte_writeBytes_inside _ _ _ (by simpa) hout, State.getElem_readBytes]

end Sys2Proof.Machine
end

section
/-! PROOFS. LDI, LDB and STB, which always complete, and CRW to a read-only register, which raises (R150 to R153). -/

namespace Sys2Proof.Machine

theorem exec_ldi (fd : FReg) (imm8 : Byte) (s : State) : exec (.ldi fd imm8) s = .next (s.setF fd imm8) := rfl

theorem exec_ldb (fd : FReg) (addr : Word) (s : State) :
    exec (.ldb fd addr) s = .next (s.setF fd (s.bufByte addr.toNat)) := rfl

theorem exec_stb (fs : FReg) (addr : Word) (s : State) :
    exec (.stb fs addr) s = .next (s.writeByte addr.toNat (s.getF fs)) := rfl

theorem CReg.not_writable_of_readOnly {n : CReg} (h : n = .status ∨ n = .errcmdl ∨ n = .errcmdh ∨ n = .cap) :
    n.writable = false := by
  obtain rfl | rfl | rfl | rfl := h <;> rfl

theorem exec_crw_readOnly {n : CReg} (h : n.writable = false) (v : Word) (s : State) :
    exec (.crw n v) s = .next (s.withError (encode (.crw n v)) (Cause.illegal .crReadonly).status) := by
  rw [← runCommand_error_eq_withError]
  simp [exec, execCrw, h]

/-- A command that completes with a write of one F register changes that register and nothing else (R15). -/
theorem exec_setF_frame {i : Instr} {s : State} {fd : FReg} {v : Byte} (h : exec i s = .next (s.setF fd v)) :
    ∃ t, exec i s = .next t ∧ t = { s with f := t.f } ∧ t.getF fd = v ∧ ∀ r, r ≠ fd → t.getF r = s.getF r :=
  ⟨_, h, s.setF_eq fd v, s.getF_setF_same fd v, fun _ hr => s.getF_setF_other v hr⟩

/-- Settles O36: both commands complete with a write of their destination. -/
theorem loadResult : Obligations.LoadResult := by
  unfold Obligations.LoadResult
  intro fd s
  exact ⟨fun imm8 => exec_setF_frame (exec_ldi fd imm8 s), fun addr => exec_setF_frame (exec_ldb fd addr s)⟩

/-- Settles O37: STB completes with a 1-byte write, and every 16-bit address is inside BUF. -/
theorem stbResult : Obligations.StbResult := by
  unfold Obligations.StbResult
  intro fs addr s
  have hinside : addr.toNat < Config.bufSize := addr.isLt
  exact ⟨_, exec_stb fs addr s, s.writeByte_eq _ _, s.bufByte_writeByte_same _ hinside,
    fun _ ha => s.bufByte_writeByte_other _ ha⟩

/-- Settles O39: CR[0] to CR[3] are not writable, and 0x0134 is the STATUS word of CR_READONLY. -/
theorem crwReadOnlyRaises : Obligations.CrwReadOnlyRaises := by
  unfold Obligations.CrwReadOnlyRaises
  intro n v s hn
  have hstatus : (Cause.illegal .crReadonly).status = 0x0134 := by decide
  rw [exec_crw_readOnly (CReg.not_writable_of_readOnly hn), hstatus]

end Sys2Proof.Machine
end

section
/-! PROOFS. Outside READY: a presented word is dropped, ACK returns from HELD only, and a pending error stays (R166,
R171, R172). -/

namespace Sys2Proof.Machine

theorem State.acknowledge_of_held {s : State} (h : statusRun s.status = runHeld) :
    s.acknowledge = { s with status := 0, errcmdl := 0, errcmdh := 0 } := if_pos h

theorem State.acknowledge_of_not_held {s : State} (h : statusRun s.status ≠ runHeld) : s.acknowledge = s := if_neg h

/-- Outside READY a step drops the word the host presents (R172). -/
theorem step_issue_of_not_ready {s : State} {w : Command} {rest : List HostAction} (hhost : s.host = .issue w :: rest)
    (hrun : statusRun s.status ≠ runReady) : step s = .next { s with host := rest } := by
  have hnot : ¬ State.ready { s with host := rest } = true := mt (State.ready_iff _).mp hrun
  rw [step_action hhost, hostAction, presentWord, if_neg hnot]

/-- In HELD a step that takes an ACK clears STATUS and ERRCMD (R171). -/
theorem step_ack_of_held {s : State} {rest : List HostAction} (hhost : s.host = .ack :: rest)
    (hrun : statusRun s.status = runHeld) :
    step s = .next { s with host := rest, status := 0, errcmdl := 0, errcmdh := 0 } := by
  have hrest : statusRun ({ s with host := rest } : State).status = runHeld := hrun
  rw [step_action hhost, hostAction, State.acknowledge_of_held hrest]

/-- Outside HELD a step that takes an ACK only takes it (R171). -/
theorem step_ack_of_not_held {s : State} {rest : List HostAction} (hhost : s.host = .ack :: rest)
    (hrun : statusRun s.status ≠ runHeld) : step s = .next { s with host := rest } := by
  have hrest : statusRun ({ s with host := rest } : State).status ≠ runHeld := hrun
  rw [step_action hhost, hostAction, State.acknowledge_of_not_held hrest]

theorem ne_ready_of_pending {run : BitVec 2} (h : run = runHeld ∨ run = runFatal) : run ≠ runReady := by
  obtain rfl | rfl := h <;> decide

/-- Settles O10: neither run state is READY. -/
theorem notAcceptedOutsideReady : Obligations.NotAcceptedOutsideReady := by
  unfold Obligations.NotAcceptedOutsideReady
  intro s w rest hhost hrun
  exact step_issue_of_not_ready hhost (ne_ready_of_pending hrun)

/-- Settles O11: ACK clears in HELD, and neither READY nor FATAL is HELD. -/
theorem ackReturnsFromHeldOnly : Obligations.AckReturnsFromHeldOnly := by
  unfold Obligations.AckReturnsFromHeldOnly
  intro s rest hhost
  refine ⟨step_ack_of_held hhost, fun hready => ?_, fun hfatal => ?_⟩
  · exact step_ack_of_not_held hhost (by rw [hready]; decide)
  · exact step_ack_of_not_held hhost (by rw [hfatal]; decide)

/-- Settles O20: a presented word is dropped, an ACK in FATAL is dropped, a read changes the reply and a write BUF. -/
theorem pendingErrorStays : Obligations.PendingErrorStays := by
  unfold Obligations.PendingErrorStays
  intro s t act rest hhost hstep hreset hrun
  cases act with
  | reset => exact absurd rfl hreset
  | issue w =>
    have hpending : statusRun s.status ≠ runReady := ne_ready_of_pending (hrun.symm.imp_left And.left)
    rw [step_issue_of_not_ready hhost hpending] at hstep
    cases hstep
    exact ⟨rfl, fun _ => rfl⟩
  | ack =>
    have hfatal : statusRun s.status = runFatal := hrun.resolve_right fun h => h.2 rfl
    rw [step_ack_of_not_held hhost (by rw [hfatal]; decide)] at hstep
    cases hstep
    exact ⟨rfl, fun _ => rfl⟩
  | readF | readCR | readBuf =>
    rw [step_action hhost] at hstep
    cases hstep
    exact ⟨rfl, fun _ => rfl⟩
  | writeBuf a v =>
    rw [step_action hhost] at hstep
    cases hstep
    exact ⟨by rw [State.writeByte_eq], fun h => absurd rfl (h a v)⟩

end Sys2Proof.Machine
end

section
/-! PROOFS. What error entry writes, that an error undoes its command, ACK after it, and which commands draw (R167,
R168, R173, R176). -/

namespace Sys2Proof.Machine

theorem Cause.run_eq (c : Cause) : c.run = if c = .divisionByZero then runFatal else runHeld := by
  cases c <;> rfl

/-- Settles O15: the fields of STATUS are the cause's, and the rest is what `raise` writes. -/
theorem errorEntryWrites : Obligations.ErrorEntryWrites := by
  unfold Obligations.ErrorEntryWrites
  intro s w c
  exact ⟨statusErr_status c, statusSub_status c, (statusRun_status c).trans c.run_eq, statusZero_status c,
    rfl, rfl, rfl⟩

/-! ### A command and its error -/

theorem runCommand_answers (i : Instr) (s : State) (effect : Except Cause State) :
    ∃ t, runCommand i s effect = .next t := by
  cases effect with
  | ok t => exact ⟨t, rfl⟩
  | error c => exact ⟨_, rfl⟩

/-- Every command answers a next state: each one is `runCommand` on its effect. -/
theorem exec_answers (i : Instr) (s : State) : ∃ t, exec i s = .next t := by
  cases i <;> simp only [exec] <;> exact runCommand_answers _ _ _

/-- A command leaves STATUS and ERRCMD alone, or its next state is the old one with an error pending (R167). -/
theorem exec_keeps_or_withError {i : Instr} {s t : State} (h : exec i s = .next t) :
    (t.status = s.status ∧ t.errcmdl = s.errcmdl ∧ t.errcmdh = s.errcmdh) ∨
      ∃ c : Cause, t = s.withError (encode i) c.status := by
  cases exec_wrote h with
  | destination | tbuild | stb | crw | mkpoly | split | combine => exact .inl (by simp)
  | error _ c => exact .inr ⟨c, rfl⟩

/-- Settles O17: every command answers, and by one of the writes `exec_wrote` lists. -/
theorem errorsArePrecise : Obligations.ErrorsArePrecise := by
  unfold Obligations.ErrorsArePrecise
  intro i s
  obtain ⟨t, ht⟩ := exec_answers i s
  exact ⟨t, ht, exec_keeps_or_withError ht⟩

/-- In a good READY state STATUS and ERRCMD read 0, so clearing them changes nothing (R18, R19). -/
theorem State.Good.cleared_of_ready {s : State} (h : s.Good) (hrun : statusRun s.status = runReady) :
    { s with status := 0, errcmdl := 0, errcmdh := 0 } = s := by
  have hstatus : s.status = 0 := by
    refine h.statusLegal.resolve_right fun ⟨c, hc⟩ => c.run_ne_ready ?_
    rw [← statusRun_status c, ← hc, hrun]
  obtain ⟨hlow, hhigh⟩ := h.errcmdClear (by rw [hstatus]; decide)
  cases s
  cases hstatus; cases hlow; cases hhigh
  rfl

/-- Settles O18: a command that left the unit HELD raised, and ACK clears what error entry wrote. -/
theorem ackUndoesFailedCommand : Obligations.AckUndoesFailedCommand := by
  unfold Obligations.AckUndoesFailedCommand
  intro i s t hgood hrun hexec hheld
  obtain ⟨hstatus, -, -⟩ | ⟨c, rfl⟩ := exec_keeps_or_withError hexec
  · rw [hstatus, hrun] at hheld
    exact absurd hheld (by decide)
  · rw [State.acknowledge_of_held hheld]
    exact hgood.cleared_of_ready hrun

/-! ### Draws -/

/-- Settles O27: the other writes leave the random source alone (R176). -/
theorem onlyMkpolyAndSplitDraw : Obligations.OnlyMkpolyAndSplitDraw := by
  unfold Obligations.OnlyMkpolyAndSplitDraw
  intro i s t ht hmkpoly hsplit
  cases exec_wrote ht with
  | destination | tbuild | stb | crw | combine | error => simp
  | mkpoly fa degree => exact absurd rfl (hmkpoly fa degree)
  | split => exact absurd rfl hsplit

end Sys2Proof.Machine
end

section
/-! PROOFS. What the registers, the tables and BUF read after a reset (R190, R191). -/

namespace Sys2Proof.Machine

theorem State.getF_resetUnit (s : State) (i : FReg) : s.resetUnit.getF i = 0 := State.getF_reset i

/-- Of the control registers only CAP reads other than 0 after a reset (R20, R190). -/
theorem State.readCR_resetUnit (s : State) {n : CReg} (h : n ≠ .cap) : s.resetUnit.readCR n = 0 := by
  cases n with
  | cap => exact absurd rfl h
  | _ => rfl

/-- A reset leaves no byte written, so each reads as the free value of that reset (R22, R191). -/
theorem State.bufByte_resetUnit (s : State) (a : Nat) :
    s.resetUnit.bufByte a = Config.bufAfterReset (s.resets + 1) a := rfl

theorem step_reset {s : State} {rest : List HostAction} (hhost : s.host = .reset :: rest) :
    step s = .next ({ s with host := rest } : State).resetUnit := step_action hhost

/-- Settles O12: the step is `resetUnit`, whatever the run state. -/
theorem resetLeavesResetValues : Obligations.ResetLeavesResetValues := by
  unfold Obligations.ResetLeavesResetValues
  intro s rest hhost
  exact ⟨_, step_reset hhost, State.resetUnit_tables _, State.getF_resetUnit _, State.readCR_cap _,
    fun _ hn => State.readCR_resetUnit _ hn, State.bufByte_resetUnit _, State.resetUnit_host _, State.resetUnit_rng _⟩

end Sys2Proof.Machine
end
